-- ==== Sys2Proof/Word.lean ====
section
/-! DEFINITION. The two word types of the core (00_scope.md R6 and section 4): a byte and a 16-bit address. -/

namespace Sys2Proof

/-- An unsigned 8-bit value, the spec's `u8`: a data register, a status byte, a memory cell. -/
abbrev Byte := BitVec 8

/-- An unsigned 16-bit value, the spec's `u16`: the program counter, an address, a 16-bit word of memory. -/
abbrev Addr := BitVec 16

end Sys2Proof
end

