-- ==== Sys2Proof/Config.lean ====
section
/-! DEFINITION. What is fixed for this hardware (00_scope.md R6, R7) and the OPEN construction parameters (D2). -/

namespace Sys2Proof

/-- The address of the reset vector's low byte (00_scope.md R6; 20_memory.md R38). -/
def Config.resetVector : Addr := 0xFFFC#16

/-- Where the standard load path places a program (00_scope.md R6; 70_reset_and_hazards.md R147). -/
def Config.standardLoadAddress : Addr := 0x8000#16

/-- What a cell of memory that nothing has written holds: memory is zero-initialised (70_reset_and_hazards.md R140). -/
def Config.emptyCell : Byte := 0x00#8

/-- The OPEN parameters `POWER_ON_A`, `POWER_ON_X`, `POWER_ON_Y`, `POWER_ON_P`, `POWER_ON_PC`: the register values at
construction, which the source does not give (00_scope.md R6; 92_eei_decisions.md D2). Statements about construction
hold for every value of them. -/
structure PowerOn where
  a  : Byte
  x  : Byte
  y  : Byte
  p  : Byte
  pc : Addr
deriving DecidableEq, Repr

/-- DESIGN CHOICE (unsafe, log entry 1): the construction values behind `State.reset`, which must be one state. Only its
`y` reaches `State.reset`, since Reset writes the four others. No statement rests on it but those about `State.reset`. -/
def Config.powerOn : PowerOn := { a := 0x00#8, x := 0x00#8, y := 0x00#8, p := 0x00#8, pc := 0x0000#16 }

end Sys2Proof
end

