-- ==== Sys2Proof/Syntax.lean ====
section
/-! DEFINITION. The instructions: one constructor for each row of spec/opcode_table.json, over the spec's addressing modes
(40_addressing_modes.md R61) and instruction kinds (30_encoding.md R58). -/

namespace Sys2Proof

/-- The nine addressed modes, the ones `Resolve` takes (40_addressing_modes.md R61, R64 to R72). -/
inductive AddrMode where
  | immediate
  | zeroPage
  | zeroPageX
  | zeroPageY
  | absolute
  | absoluteX
  | absoluteY
  | indirectX
  | indirectY
deriving DecidableEq, Repr

/-- The ten modes of 30_encoding.md R53: Implied, which has no operand and no effective address
(40_addressing_modes.md R63), and the nine addressed modes. -/
inductive Mode where
  | implied
  | addressed (m : AddrMode)
deriving DecidableEq, Repr

/-- The instruction kinds the decoder names (30_encoding.md R58). -/
inductive Kind where
  | halt
  | loadAccumulator
  | loadX
  | transferAtoX
  | storeAccumulator
  | unrecognized
deriving DecidableEq, Repr

/-- The instructions of the opcode table, each with the operand the decoder reads for it (30_encoding.md R51, R52). -/
inductive Instr where
  /-- `BRK`, 0x00: halt (42_control_and_dispatch.md R104). -/
  | brk
  /-- `STA $zz`, 0x85 (41_load_store_transfer.md R89). -/
  | staZp (zz : Byte)
  /-- `STA $zz,X`, 0x95 (41_load_store_transfer.md R90). -/
  | staZpX (zz : Byte)
  /-- `LDA $zz`, 0xA5 (41_load_store_transfer.md R84). -/
  | ldaZp (zz : Byte)
  /-- `LDA #$ii`, 0xA9 (41_load_store_transfer.md R83). -/
  | ldaImm (imm : Byte)
  /-- `TAX`, 0xAA (41_load_store_transfer.md R87). -/
  | tax
  /-- `LDA $nnnn`, 0xAD (41_load_store_transfer.md R85). -/
  | ldaAbs (a16 : Addr)
  /-- The operation LoadX, which no byte encodes and which is invoked directly with one of the nine addressed modes
  (41_load_store_transfer.md R86; 90_conflicts.md C2). -/
  | loadX (m : AddrMode)
  /-- Any of the 249 bytes outside the table: a one-byte no-op (30_encoding.md R55; 42_control_and_dispatch.md R105). -/
  | unrecognized (op : Byte)
deriving DecidableEq, Repr

end Sys2Proof
end

