-- ==== Sys2Proof/WellFormed.lean ====
section
/-! DEFINITION. Which terms of `Instr` stand for an instruction of the table: the byte of an unrecognized opcode is none of
the seven recognized ones (30_encoding.md R55). Every other field may hold every value of its type. -/

namespace Sys2Proof

/-- The seven recognized opcode bytes (00_scope.md R6; 30_encoding.md R52). -/
def recognizedOpcodes : List Byte := [0x00#8, 0x85#8, 0x95#8, 0xA5#8, 0xA9#8, 0xAA#8, 0xAD#8]

/-- The check of an instruction term, field by field. -/
def Instr.wellFormed : Instr → Bool
  | .brk => true
  | .staZp _ => true
  | .staZpX _ => true
  | .ldaZp _ => true
  | .ldaImm _ => true
  | .tax => true
  | .ldaAbs _ => true
  | .loadX _ => true
  | .unrecognized op => !recognizedOpcodes.contains op

/-- The check as a proposition. -/
abbrev Instr.WellFormed (i : Instr) : Prop := i.wellFormed = true

end Sys2Proof
end

