-- ==== Sys2Proof/Decode.lean ====
section
/-! DEFINITION. The instruction_decoder (30_encoding.md): the opcode map, operand widths, the decoder over bytes, and the
encoder. -/

namespace Sys2Proof

/-! ### Byte order (00_scope.md section 4) -/

/-- `hi : lo`, the word whose value is `hi * 256 + lo`. -/
def joinBytes (hi lo : Byte) : Addr := hi ++ lo

/-- `w[7:0]`. -/
def lowByte (w : Addr) : Byte := w.extractLsb' 0 8

/-- `w[15:8]`. -/
def highByte (w : Addr) : Byte := w.extractLsb' 8 8

/-! ### Modes and widths -/

/-- The operand byte width of an addressed mode (30_encoding.md R53). -/
def AddrMode.width : AddrMode → Nat
  | .immediate => 1
  | .zeroPage => 1
  | .zeroPageX => 1
  | .zeroPageY => 1
  | .indirectX => 1
  | .indirectY => 1
  | .absolute => 2
  | .absoluteX => 2
  | .absoluteY => 2

/-- The operand byte width of each of the ten modes (30_encoding.md R53). -/
def Mode.width : Mode → Nat
  | .implied => 0
  | .addressed m => m.width

/-! ### The opcode map -/

/-- The rows of the opcode map of 30_encoding.md R52: seven recognized opcodes and the fallback row. -/
inductive OpcodeRow where
  | brk
  | staZp
  | staZpX
  | ldaZp
  | ldaImm
  | tax
  | ldaAbs
  | unrecognized
deriving DecidableEq, Repr

/-- The row a byte selects, matched on all eight bits (30_encoding.md R52); the fallback row takes every other byte. -/
def opcodeRow (op : Byte) : OpcodeRow :=
  if op = 0x00#8 then .brk
  else if op = 0x85#8 then .staZp
  else if op = 0x95#8 then .staZpX
  else if op = 0xA5#8 then .ldaZp
  else if op = 0xA9#8 then .ldaImm
  else if op = 0xAA#8 then .tax
  else if op = 0xAD#8 then .ldaAbs
  else .unrecognized

/-- The kind column of the opcode map (30_encoding.md R52). -/
def OpcodeRow.kind : OpcodeRow → Kind
  | .brk => .halt
  | .staZp => .storeAccumulator
  | .staZpX => .storeAccumulator
  | .ldaZp => .loadAccumulator
  | .ldaImm => .loadAccumulator
  | .tax => .transferAtoX
  | .ldaAbs => .loadAccumulator
  | .unrecognized => .unrecognized

/-- The mode column of the opcode map (30_encoding.md R52). -/
def OpcodeRow.mode : OpcodeRow → Mode
  | .brk => .implied
  | .staZp => .addressed .zeroPage
  | .staZpX => .addressed .zeroPageX
  | .ldaZp => .addressed .zeroPage
  | .ldaImm => .addressed .immediate
  | .tax => .implied
  | .ldaAbs => .addressed .absolute
  | .unrecognized => .implied

/-- What the decoder answers for an opcode byte: the triple `(kind, mode, width)` of 30_encoding.md R58. -/
structure Decoded where
  kind  : Kind
  mode  : Mode
  width : Nat
deriving DecidableEq, Repr

/-- `Decode(op)` of 30_encoding.md R52. -/
def decodeOpcode (op : Byte) : Decoded :=
  { kind := (opcodeRow op).kind, mode := (opcodeRow op).mode, width := (opcodeRow op).mode.width }

/-- The kind of an instruction term (30_encoding.md R58). -/
def Instr.kind : Instr → Kind
  | .brk => .halt
  | .staZp _ => .storeAccumulator
  | .staZpX _ => .storeAccumulator
  | .ldaZp _ => .loadAccumulator
  | .ldaImm _ => .loadAccumulator
  | .tax => .transferAtoX
  | .ldaAbs _ => .loadAccumulator
  | .loadX _ => .loadX
  | .unrecognized _ => .unrecognized

/-- The addressing mode of an instruction term (30_encoding.md R52; 41_load_store_transfer.md R86 for LoadX). -/
def Instr.mode : Instr → Mode
  | .brk => .implied
  | .staZp _ => .addressed .zeroPage
  | .staZpX _ => .addressed .zeroPageX
  | .ldaZp _ => .addressed .zeroPage
  | .ldaImm _ => .addressed .immediate
  | .tax => .implied
  | .ldaAbs _ => .addressed .absolute
  | .loadX m => .addressed m
  | .unrecognized _ => .implied

/-! ### The decoder over bytes -/

/-- The instruction an opcode byte and the two bytes after it stand for; an operand byte the row's width does not take in is
not looked at (30_encoding.md R50, R51). It is total: every byte selects one row (30_encoding.md R52). -/
def decodeFields (op b1 b2 : Byte) : Instr :=
  match opcodeRow op with
  | .brk => .brk
  | .staZp => .staZp b1
  | .staZpX => .staZpX b1
  | .ldaZp => .ldaZp b1
  | .ldaImm => .ldaImm b1
  | .tax => .tax
  | .ldaAbs => .ldaAbs (joinBytes b2 b1)
  | .unrecognized => .unrecognized op

/-- Why a list of bytes is no instruction. Only a list that ends too early is none: in memory no instruction is cut short,
since addresses wrap (42_control_and_dispatch.md R103), so `step` never meets either. DESIGN CHOICE, log entry 13. -/
inductive DecodeError where
  /-- Raised by `decode` on the empty list. -/
  | noOpcode
  /-- Raised by `decode` when fewer bytes follow the opcode `op` than its operand width. -/
  | truncated (op : Byte)
deriving DecidableEq, Repr

/-- The decoder on a list of bytes: the first instruction and the bytes after it (30_encoding.md R50, R54). -/
def decode : List Byte → Except DecodeError (Instr × List Byte)
  | [] => .error .noOpcode
  | op :: rest =>
    if rest.length < (decodeOpcode op).width then .error (.truncated op)
    else .ok (decodeFields op (rest.getD 0 0x00#8) (rest.getD 1 0x00#8), rest.drop (decodeOpcode op).width)

/-! ### The encoder -/

/-- The bytes of an instruction, lowest address first, from the encodings of 41_load_store_transfer.md R83 to R90 and
42_control_and_dispatch.md R104, R105. LoadX has none (41_load_store_transfer.md R86). -/
def encode : Instr → Option (List Byte)
  | .brk => some [0x00#8]
  | .staZp zz => some [0x85#8, zz]
  | .staZpX zz => some [0x95#8, zz]
  | .ldaZp zz => some [0xA5#8, zz]
  | .ldaImm imm => some [0xA9#8, imm]
  | .tax => some [0xAA#8]
  | .ldaAbs a16 => some [0xAD#8, lowByte a16, highByte a16]
  | .loadX _ => none
  | .unrecognized op => some [op]

/-! ### The opcode table's numbering -/

/-- The three bytes (the longest instruction, 30_encoding.md R50) of a word numbered as spec/opcode_table.json numbers it:
bit 0 is the least significant bit of the first byte. Bits from `nbits` up are 0. -/
def tableBytes (nbits w : Nat) : List Byte :=
  let v := w % 2 ^ nbits
  [BitVec.ofNat 8 v, BitVec.ofNat 8 (v / 256), BitVec.ofNat 8 (v / 65536)]

/-- The instruction the decoder reads from a word of the opcode table. -/
def decodeTableWord (nbits w : Nat) : Option Instr :=
  match decode (tableBytes nbits w) with
  | .ok (i, _) => some i
  | .error _ => none

end Sys2Proof
end

