-- ==== Sys2Proof/Machine/State.lean ====
section
/-! DEFINITION. The state of the core as plain data, the reasons a step or a host operation stops, and the state right after
reset (10_state.md). -/

namespace Sys2Proof.Machine

/-- Memory (10_state.md R18): the (address, byte) pairs of the cells that do not hold `Config.emptyCell`, addresses strictly
rising. `Memory.wf` in Machine/Ops.lean is that form. DESIGN CHOICE, log entry 5. -/
abbrev Memory := List Host.Cell

/-- The architectural state `(A, X, Y, P, PC, mem, halted)` of 10_state.md; nothing else is state (R20, R21). -/
structure State where
  /-- `A`, the accumulator (10_state.md R10). -/
  a : Byte
  /-- `X` (10_state.md R11). -/
  x : Byte
  /-- `Y` (10_state.md R12). -/
  y : Byte
  /-- `P`, the status register: Z is bit 1, N is bit 7, the others are plain storage (10_state.md R13, R14). -/
  p : Byte
  /-- `PC` (10_state.md R16). -/
  pc : Addr
  /-- `mem`, the one 64 KiB address space (10_state.md R18, R19). -/
  mem : Memory
  /-- The halt bit (10_state.md R17). -/
  halted : Bool
deriving DecidableEq, Repr

/-- The reasons a step faults. The core raises no exception (60_exceptions.md R120). -/
inductive Fault where
  /-- Raised by `step` alone, when the halt bit is set: the core takes no step there (42_control_and_dispatch.md R106, R107),
  so this is a stuck state. Safe: nothing is claimed of a state after it (log entry 3). -/
  | coreHalted
deriving DecidableEq, Repr

/-- The reasons a step or a host operation is refused. -/
inductive Refusal where
  /-- Raised by an arm of `exec` whose instruction has no meaning yet; no arm does. Safe. -/
  | notModelled (mnemonic : String)
  /-- Raised by the host operation `load` alone, when the program would pass the end of memory
  (70_reset_and_hazards.md R145). The spec's own refusal. Safe. -/
  | loadPastEnd
deriving DecidableEq, Repr

/-- The machine right after reset: Construct (70_reset_and_hazards.md R140) and then Reset (R141), with nothing loaded, so
the reset vector reads 0x0000 (R143): DEDUCED, log entry 10. `y` is not written by Reset: DESIGN CHOICE, log entry 1 (unsafe). -/
def State.reset : State :=
  { a := 0x00#8, x := 0x00#8, y := Config.powerOn.y, p := 0x00#8, pc := 0x0000#16, mem := [], halted := false }

end Sys2Proof.Machine
end

