-- ==== Sys2Proof/Machine/Ops.lean ====
section
/-! DEFINITION. The named operations: the address adders, memory and its four primitives, fetching an instruction, and the
program counter's two updates. The core takes no exception (60_exceptions.md R120, R123), so there is no operation for it. -/

namespace Sys2Proof.Machine

/-! ### The adders of the alu (40_addressing_modes.md R62) -/

/-- `add8`: the sum modulo 256, the carry discarded. -/
def add8 (a b : Byte) : Byte := a + b

/-- `add16`: the sum modulo 65536, the carry discarded. -/
def add16 (a b : Addr) : Addr := a + b

/-- `zext16`: the word whose low byte is `b` and whose high byte is 0 (00_scope.md section 4). -/
def zext16 (b : Byte) : Addr := b.setWidth 16

/-! ### Memory as a canonical list of cells -/

/-- The byte at an address: its entry, or what an unlisted cell holds (70_reset_and_hazards.md R140). -/
def Memory.read : Memory → Nat → Byte
  | [], _ => Config.emptyCell
  | (k, v) :: rest, a => if k = a then v else Memory.read rest a

/-- Memory with no entry for an address. -/
def Memory.without (m : Memory) (a : Nat) : Memory := List.filter (fun c => c.1 != a) m

/-- An entry put before the first entry of a greater address. -/
def Memory.place : Memory → Nat → Byte → Memory
  | [], a, v => [(a, v)]
  | (k, w) :: rest, a, v => if a < k then (a, v) :: (k, w) :: rest else (k, w) :: Memory.place rest a v

/-- Sets one cell and keeps the canonical form: writing what an unlisted cell holds removes the entry. -/
def Memory.write (m : Memory) (a : Nat) (v : Byte) : Memory :=
  if v = Config.emptyCell then Memory.without m a else Memory.place (Memory.without m a) a v

/-- The canonical form: addresses below 65536 (10_state.md R18), strictly rising, and no entry equal to what an unlisted
cell holds. -/
def Memory.wf : Memory → Bool
  | [] => true
  | (k, v) :: rest =>
    decide (k < 65536) && v != Config.emptyCell && List.all rest (fun c => decide (k < c.1)) && Memory.wf rest

/-! ### The four primitives (20_memory.md R30 to R33) -/

/-- `ReadByte` (20_memory.md R30). -/
def readByte (m : Memory) (a : Addr) : Byte := Memory.read m a.toNat

/-- `WriteByte` (20_memory.md R31). -/
def writeByte (m : Memory) (a : Addr) (v : Byte) : Memory := Memory.write m a.toNat v

/-- `ReadWord`: little-endian, the second address wrapping at 16 bits (20_memory.md R32). -/
def readWord (m : Memory) (a : Addr) : Addr := joinBytes (readByte m (add16 a 1#16)) (readByte m a)

/-- `WriteWord`: the inverse of `ReadWord` (20_memory.md R33). -/
def writeWord (m : Memory) (a w : Addr) : Memory :=
  writeByte (writeByte m a (lowByte w)) (add16 a 1#16) (highByte w)

/-! ### Fetch (42_control_and_dispatch.md R101, R102) -/

/-- The instruction that stands at an address, its bytes wrapping at 16 bits (30_encoding.md R50). Bytes past its width have
no part in the answer, and reading them has no effect (20_memory.md R37): DESIGN CHOICE, log entry 7. -/
def fetchInstr (m : Memory) (pc : Addr) : Instr :=
  decodeFields (readByte m pc) (readByte m (add16 pc 1#16)) (readByte m (add16 pc 2#16))

/-- The `n` bytes from an address on, wrapping at 16 bits. -/
def bytesFrom (m : Memory) : Addr → Nat → List Byte
  | _, 0 => []
  | pc, n + 1 => readByte m pc :: bytesFrom m (add16 pc 1#16) n

/-- Memory with a list of bytes from an address on, wrapping at 16 bits. -/
def copyBytes : List Byte → Addr → Memory → Memory
  | [], _, m => m
  | b :: bs, a, m => copyBytes bs (add16 a 1#16) (writeByte m a b)

/-! ### The program counter within a step (10_state.md R16) -/

/-- The fetch's increment: from `opPC` to `operandPC` (42_control_and_dispatch.md R101). -/
def pastOpcode (s : State) : State := { s with pc := add16 s.pc 1#16 }

/-- The advance past the operand bytes (42_control_and_dispatch.md R103). -/
def advance (mode : Mode) (s : State) : State := { s with pc := add16 s.pc (BitVec.ofNat 16 mode.width) }

/-- The frame of a step around an instruction's execute phase: the fetch's increment, the execute phase with
`PC = operandPC`, the advance (42_control_and_dispatch.md R100). No execute phase stops (60_exceptions.md R120). -/
def executeAs (mode : Mode) (execute : State → State) (s : State) : Host.Outcome State Fault Refusal :=
  .next (advance mode (execute (pastOpcode s)))

end Sys2Proof.Machine
end

