-- ==== Sys2Proof/Machine/Control.lean ====
section
/-! DEFINITION. BRK, which halts, and the unrecognized bytes, which do nothing (42_control_and_dispatch.md R104, R105). -/

namespace Sys2Proof.Machine

/-- `halted <- 1` and nothing else: no push, no vector, no flag (42_control_and_dispatch.md R104; 60_exceptions.md R123). -/
def enterHalt (s : State) : State := { s with halted := true }

/-- `BRK`, 0x00 (42_control_and_dispatch.md R104). -/
def execBrk (s : State) : Host.Outcome State Fault Refusal :=
  executeAs .implied enterHalt s

/-- An unrecognized byte: a one-byte no-op (30_encoding.md R55; 42_control_and_dispatch.md R105). -/
def execUnrecognized (s : State) : Host.Outcome State Fault Refusal :=
  executeAs .implied (fun t => t) s

end Sys2Proof.Machine
end

