-- ==== Sys2Proof/Machine/Flags.lean ====
section
/-! DEFINITION. The status_flag_update sub-block and the flag tests of the alu (41_load_store_transfer.md R80, R81). -/

namespace Sys2Proof.Machine

/-- `isZero(v)` (41_load_store_transfer.md R81). -/
def isZero (v : Byte) : Bool := v == 0x00#8

/-- `bit7(v)` (41_load_store_transfer.md R81). -/
def bit7 (v : Byte) : Bool := v.getLsbD 7

/-- A byte with one bit set to `b`, the others kept. -/
def putBit (p : Byte) (i : Nat) (b : Bool) : Byte :=
  if b then p ||| (1#8 <<< i) else p &&& ~~~(1#8 <<< i)

/-- What `UpdateZN(v)` makes of a status byte: Z (bit 1) and N (bit 7) written, the others kept (41_load_store_transfer.md
R80; 10_state.md R13). -/
def statusZN (p v : Byte) : Byte := putBit (putBit p 1 (isZero v)) 7 (bit7 v)

/-- `UpdateZN(v)` (41_load_store_transfer.md R80). -/
def updateZN (v : Byte) (s : State) : State := { s with p := statusZN s.p v }

end Sys2Proof.Machine
end

