-- ==== Sys2Proof/Machine/Operands.lean ====
section
/-! DEFINITION. The addressing_mode_resolver (40_addressing_modes.md): every operand form, the effective address of each, and
`Resolve` over memory. -/

namespace Sys2Proof.Machine

/-- An operand as its bytes give it (30_encoding.md R51): a data byte, a zero-page address or pointer, or a 16-bit address. -/
inductive Operand where
  | immediate (imm : Byte)
  | zeroPage (b8 : Byte)
  | zeroPageX (b8 : Byte)
  | zeroPageY (b8 : Byte)
  | absolute (a16 : Addr)
  | absoluteX (a16 : Addr)
  | absoluteY (a16 : Addr)
  | indirectX (b8 : Byte)
  | indirectY (b8 : Byte)
deriving DecidableEq, Repr

/-- The operand of a mode whose bytes stand at `pc` (30_encoding.md R51). -/
def operandAt (mode : AddrMode) (pc : Addr) (m : Memory) : Operand :=
  match mode with
  | .immediate => .immediate (readByte m pc)
  | .zeroPage => .zeroPage (readByte m pc)
  | .zeroPageX => .zeroPageX (readByte m pc)
  | .zeroPageY => .zeroPageY (readByte m pc)
  | .absolute => .absolute (readWord m pc)
  | .absoluteX => .absoluteX (readWord m pc)
  | .absoluteY => .absoluteY (readWord m pc)
  | .indirectX => .indirectX (readByte m pc)
  | .indirectY => .indirectY (readByte m pc)

/-- The word at the zero-page pointer `p`, both byte addresses wrapping within the zero page (40_addressing_modes.md R71,
R72). -/
def pointerWord (m : Memory) (p : Byte) : Addr :=
  joinBytes (readByte m (zext16 (add8 p 0x01#8))) (readByte m (zext16 p))

/-- The effective address of an operand whose first byte stands at `pc` (40_addressing_modes.md R64 to R72). -/
def effectiveAddress (o : Operand) (pc : Addr) (x y : Byte) (m : Memory) : Addr :=
  match o with
  | .immediate _ => pc
  | .zeroPage b8 => zext16 b8
  | .zeroPageX b8 => zext16 (add8 b8 x)
  | .zeroPageY b8 => zext16 (add8 b8 y)
  | .absolute a16 => a16
  | .absoluteX a16 => add16 a16 (zext16 x)
  | .absoluteY a16 => add16 a16 (zext16 y)
  | .indirectX b8 => pointerWord m (add8 b8 x)
  | .indirectY b8 => add16 (pointerWord m b8) (zext16 y)

/-- `Resolve(mode, PC, X, Y, mem)` (40_addressing_modes.md R61): the operand's bytes read at `pc`, then its effective
address. -/
def resolve (mode : AddrMode) (pc : Addr) (x y : Byte) (m : Memory) : Addr :=
  effectiveAddress (operandAt mode pc m) pc x y m

/-- The effective address of an operand in a state whose `pc` is `operandPC`. -/
def operandAddress (o : Operand) (s : State) : Addr := effectiveAddress o s.pc s.x s.y s.mem

/-- The byte an operand names in a state whose `pc` is `operandPC`: the byte at the effective address, which for an
immediate operand is the operand byte itself (40_addressing_modes.md R64; 41_load_store_transfer.md R83). -/
def operandByte (o : Operand) (s : State) : Byte :=
  match o with
  | .immediate imm => imm
  | .zeroPage b8 => readByte s.mem (operandAddress (.zeroPage b8) s)
  | .zeroPageX b8 => readByte s.mem (operandAddress (.zeroPageX b8) s)
  | .zeroPageY b8 => readByte s.mem (operandAddress (.zeroPageY b8) s)
  | .absolute a16 => readByte s.mem (operandAddress (.absolute a16) s)
  | .absoluteX a16 => readByte s.mem (operandAddress (.absoluteX a16) s)
  | .absoluteY a16 => readByte s.mem (operandAddress (.absoluteY a16) s)
  | .indirectX b8 => readByte s.mem (operandAddress (.indirectX b8) s)
  | .indirectY b8 => readByte s.mem (operandAddress (.indirectY b8) s)

end Sys2Proof.Machine
end

