-- ==== Sys2Proof/Machine/Load.lean ====
section
/-! DEFINITION. The loads (41_load_store_transfer.md R82 to R86): LoadAccumulator and its three instructions, and LoadX. -/

namespace Sys2Proof.Machine

/-- `A <- v; UpdateZN(A)` (41_load_store_transfer.md R82). -/
def putAccumulator (v : Byte) (s : State) : State := updateZN v { s with a := v }

/-- `X <- v; UpdateZN(X)` (41_load_store_transfer.md R86, R87). -/
def putX (v : Byte) (s : State) : State := updateZN v { s with x := v }

/-- The execute phase of a load into A from an operand, with `PC = operandPC` (41_load_store_transfer.md R82). -/
def loadAccumulatorFrom (o : Operand) (s : State) : State := putAccumulator (operandByte o s) s

/-- `LoadAccumulator(mode)`, over every addressed mode, with `PC = operandPC` (41_load_store_transfer.md R82;
90_conflicts.md C2). -/
def loadAccumulator (mode : AddrMode) (s : State) : State :=
  putAccumulator (readByte s.mem (resolve mode s.pc s.x s.y s.mem)) s

/-- `LoadX(mode)`, with `PC = operandPC`; the old X indexes the address (41_load_store_transfer.md R86). -/
def loadX (mode : AddrMode) (s : State) : State :=
  putX (readByte s.mem (resolve mode s.pc s.x s.y s.mem)) s

/-- `LDA #imm`, 0xA9 (41_load_store_transfer.md R83). -/
def execLdaImm (imm : Byte) (s : State) : Host.Outcome State Fault Refusal :=
  executeAs (.addressed .immediate) (loadAccumulatorFrom (.immediate imm)) s

/-- `LDA zp`, 0xA5 (41_load_store_transfer.md R84). -/
def execLdaZp (zz : Byte) (s : State) : Host.Outcome State Fault Refusal :=
  executeAs (.addressed .zeroPage) (loadAccumulatorFrom (.zeroPage zz)) s

/-- `LDA abs`, 0xAD (41_load_store_transfer.md R85). -/
def execLdaAbs (a16 : Addr) (s : State) : Host.Outcome State Fault Refusal :=
  executeAs (.addressed .absolute) (loadAccumulatorFrom (.absolute a16)) s

/-- `LoadX(mode)` invoked directly in a state whose `pc` is `operandPC`. No byte encodes it, so there is no opcode byte to
step over, and it reads PC without writing it (41_load_store_transfer.md R86; 10_state.md R22): DEDUCED, log entry 4. -/
def execLoadX (mode : AddrMode) (s : State) : Host.Outcome State Fault Refusal :=
  .next (loadX mode s)

end Sys2Proof.Machine
end

