-- ==== Sys2Proof/Machine/Store.lean ====
section
/-! DEFINITION. The stores (41_load_store_transfer.md R88 to R91): StoreAccumulator and its two instructions. -/

namespace Sys2Proof.Machine

/-- `WriteByte(EA, A)`: one byte, no flag (41_load_store_transfer.md R88, R91). -/
def storeAt (ea : Addr) (s : State) : State := { s with mem := writeByte s.mem ea s.a }

/-- The execute phase of a store of A to an operand, with `PC = operandPC` (41_load_store_transfer.md R88). -/
def storeAccumulatorTo (o : Operand) (s : State) : State := storeAt (operandAddress o s) s

/-- `StoreAccumulator(mode)`, over every addressed mode, with `PC = operandPC` (41_load_store_transfer.md R88;
90_conflicts.md C2). -/
def storeAccumulator (mode : AddrMode) (s : State) : State :=
  storeAt (resolve mode s.pc s.x s.y s.mem) s

/-- `STA zp`, 0x85 (41_load_store_transfer.md R89). -/
def execStaZp (zz : Byte) (s : State) : Host.Outcome State Fault Refusal :=
  executeAs (.addressed .zeroPage) (storeAccumulatorTo (.zeroPage zz)) s

/-- `STA zp,X`, 0x95 (41_load_store_transfer.md R90). -/
def execStaZpX (zz : Byte) (s : State) : Host.Outcome State Fault Refusal :=
  executeAs (.addressed .zeroPageX) (storeAccumulatorTo (.zeroPageX zz)) s

end Sys2Proof.Machine
end

