-- ==== Sys2Proof/Machine/Transfer.lean ====
section
/-! DEFINITION. The transfer TAX (41_load_store_transfer.md R87). -/

namespace Sys2Proof.Machine

/-- The execute phase of TAX: `X <- A; UpdateZN(X)` (41_load_store_transfer.md R87). -/
def transferAtoX (s : State) : State := putX s.a s

/-- `TAX`, 0xAA (41_load_store_transfer.md R87). -/
def execTax (s : State) : Host.Outcome State Fault Refusal :=
  executeAs .implied transferAtoX s

end Sys2Proof.Machine
end

