-- ==== Sys2Proof/Machine/Dispatch.lean ====
section
/-! DEFINITION. One arm for each instruction (30_encoding.md R58): the meaning each constructor has. -/

namespace Sys2Proof.Machine

/-- What an instruction does from a state whose `pc` is the address of its opcode byte (for `loadX`, which has none, of its
first operand byte). The operand is the instruction's own, and the halt bit is `step`'s to look at: DESIGN CHOICE, log entry 8. -/
def exec (i : Instr) (s : State) : Host.Outcome State Fault Refusal :=
  match i with
  | .brk => Sys2Proof.Machine.execBrk s
  | .staZp zz => Sys2Proof.Machine.execStaZp zz s
  | .staZpX zz => Sys2Proof.Machine.execStaZpX zz s
  | .ldaZp zz => Sys2Proof.Machine.execLdaZp zz s
  | .ldaImm imm => Sys2Proof.Machine.execLdaImm imm s
  | .tax => Sys2Proof.Machine.execTax s
  | .ldaAbs a16 => Sys2Proof.Machine.execLdaAbs a16 s
  | .loadX m => Sys2Proof.Machine.execLoadX m s
  | .unrecognized _ => Sys2Proof.Machine.execUnrecognized s

end Sys2Proof.Machine
end

