-- ==== Sys2Proof/Machine/Step.lean ====
section
/-! DEFINITION. One step: fetch, decode, execute and advance as one transition (42_control_and_dispatch.md R100). -/

namespace Sys2Proof.Machine

/-- `Step()`, enabled only while the halt bit is clear (42_control_and_dispatch.md R100, R107). Where it is set there is no
step: the named fault `coreHalted` (log entry 3). -/
def step (s : State) : Host.Outcome State Fault Refusal :=
  if s.halted then .fault .coreHalted else exec (fetchInstr s.mem s.pc) s

/-- The state with an instruction word of the opcode table placed where the next step fetches it, the core running: what the
host's load and Start do for a program (70_reset_and_hazards.md R144, R149; log entry 2). -/
def State.withFetchWord (s : State) (nbits w : Nat) : State :=
  { s with mem := copyBytes (tableBytes nbits w) s.pc s.mem, halted := false }

end Sys2Proof.Machine
end

