-- ==== Sys2Proof/Machine/Accesses.lean ====
section
/-! DEFINITION. The byte accesses a step and a Reset make, in order (20_memory.md R36). No access has a side effect (R37), so the
order cannot be observed in the state and the step does not use this listing (log entry 7). -/

namespace Sys2Proof.Machine

/-- One access, always of one byte (20_memory.md R36). -/
inductive Access where
  | read (a : Addr)
  | write (a : Addr)
deriving DecidableEq, Repr

/-- The accesses of the step a running core takes from a state, in order (20_memory.md R36): the opcode fetch and then, by the
fetched instruction, its operand bytes low to high and its data access. LoadX is never fetched (30_encoding.md R58). -/
def stepAccesses (s : State) : List Access :=
  let operandPC := add16 s.pc 1#16
  .read s.pc ::
    match fetchInstr s.mem s.pc with
    | .brk => []
    | .staZp zz => [.read operandPC, .write (zext16 zz)]
    | .staZpX zz => [.read operandPC, .write (zext16 (add8 zz s.x))]
    | .ldaZp zz => [.read operandPC, .read (zext16 zz)]
    | .ldaImm _ => [.read operandPC]
    | .tax => []
    | .ldaAbs a16 => [.read operandPC, .read (add16 operandPC 1#16), .read a16]
    | .loadX _ => []
    | .unrecognized _ => []

/-- The accesses of Reset, in order (20_memory.md R36): the reset vector, low byte first. -/
def resetAccesses : List Access :=
  [.read Config.resetVector, .read (add16 Config.resetVector 1#16)]

end Sys2Proof.Machine
end

