-- ==== Sys2Proof/Machine/HostOps.lean ====
section
/-! DEFINITION. The host operations between steps (70_reset_and_hazards.md R150) but for Step and Run: Construct, Load, Reset,
Start, and the reads and writes of registers and memory. -/

namespace Sys2Proof.Machine

/-- Construct: memory zero, the registers at the OPEN parameters, the core halted (70_reset_and_hazards.md R140); log entry 6. -/
def construct (on : PowerOn) : State :=
  { a := on.a, x := on.x, y := on.y, p := on.p, pc := on.pc, mem := [], halted := true }

/-- `Reset()`: A, X and P cleared, PC loaded from the reset vector, the halt bit cleared; Y and memory kept
(70_reset_and_hazards.md R141, R142). -/
def resetCore (s : State) : State :=
  { s with a := 0x00#8, x := 0x00#8, p := 0x00#8, pc := readWord s.mem Config.resetVector, halted := false }

/-- `Load(bytes, base)`: the bytes copied, then the reset vector set to `base`; refused, nothing written, when the bytes pass
the end of memory (70_reset_and_hazards.md R144 to R146). -/
def load (bytes : List Byte) (base : Addr) (s : State) : Host.Outcome State Fault Refusal :=
  if 0x10000 < base.toNat + bytes.length then .refused .loadPastEnd
  else .next { s with mem := writeWord (copyBytes bytes base s.mem) Config.resetVector base }

/-- The standard load path: `Load(bytes, 0x8000)` (70_reset_and_hazards.md R147). -/
def loadStandard (bytes : List Byte) (s : State) : Host.Outcome State Fault Refusal :=
  load bytes Config.standardLoadAddress s

/-- `Start()`: the halt bit cleared, nothing else (70_reset_and_hazards.md R149). -/
def start (s : State) : State := { s with halted := false }

/-- The registers the host reads and writes (10_state.md R23). -/
inductive Reg where
  | a
  | x
  | y
  | p
  | pc
deriving DecidableEq, Repr

/-- A register's width in bits (00_scope.md R6). -/
abbrev Reg.width : Reg → Nat
  | .a => 8
  | .x => 8
  | .y => 8
  | .p => 8
  | .pc => 16

/-- `ReadReg(r)` (10_state.md R23; 70_reset_and_hazards.md R150). -/
def readReg (r : Reg) (s : State) : BitVec r.width :=
  match r with
  | .a => s.a
  | .x => s.x
  | .y => s.y
  | .p => s.p
  | .pc => s.pc

/-- `WriteReg(r, v)`: the value stored unchanged, reserved bits of P included (10_state.md R14, R23). -/
def writeReg (r : Reg) (v : BitVec r.width) (s : State) : State :=
  match r, v with
  | .a, v => { s with a := v }
  | .x, v => { s with x := v }
  | .y, v => { s with y := v }
  | .p, v => { s with p := v }
  | .pc, v => { s with pc := v }

/-- `ReadMem(a)` (70_reset_and_hazards.md R150). -/
def readMem (a : Addr) (s : State) : Byte := readByte s.mem a

/-- `WriteMem(a, v)` (70_reset_and_hazards.md R150). -/
def writeMem (a : Addr) (v : Byte) (s : State) : State := { s with mem := writeByte s.mem a v }

/-- `ReadHalted()` (70_reset_and_hazards.md R150). -/
def readHalted (s : State) : Bool := s.halted

end Sys2Proof.Machine
end

