-- ==== Sys2Proof/Machine/Run.lean ====
section
/-! DEFINITION. `Run()`: Step repeated while the halt bit is clear (42_control_and_dispatch.md R108). -/

namespace Sys2Proof.Machine

/-- How a fuel-bounded run ends (92_eei_decisions.md D18). -/
inductive RunResult where
  /-- The final state of the run (42_control_and_dispatch.md R107). -/
  | halted (s : State)
  /-- The fuel is used up in a running state, which is no final state (42_control_and_dispatch.md R108). -/
  | outOfFuel (s : State)
  /-- A step stopped with a fault; no step of a running core does (60_exceptions.md R120). -/
  | faulted (r : Fault)
  /-- A step was refused; no step of this core is (60_exceptions.md R120). -/
  | refused (r : Refusal)
deriving DecidableEq, Repr

/-- `Run()` with a bound on the number of steps, which the hardware has not (42_control_and_dispatch.md R108): DESIGN CHOICE, log entry 11. -/
def run (fuel : Nat) (s : State) : RunResult :=
  match fuel with
  | 0 => if s.halted then .halted s else .outOfFuel s
  | k + 1 =>
    if s.halted then .halted s
    else
      match step s with
      | .next t => run k t
      | .fault r => .faulted r
      | .refused r => .refused r

end Sys2Proof.Machine
end

