-- ==== Sys2Proof/Machine/Sequencer.lean ====
section
/-! DEFINITION. The loop contract of 42_control_and_dispatch.md R100 as its pseudocode writes it: the operand bytes are read by
`Resolve` from memory while the instruction executes. `step` decodes them first; the two are stated to agree. -/

namespace Sys2Proof.Machine

/-- The execute phase of R100: one arm for each kind, from a state with `PC = operandPC`. LoadAccumulator, LoadX and
StoreAccumulator are never Implied (41_load_store_transfer.md R82, R86, R88): no row of the opcode map gives them that mode,
and such an arm does nothing (DESIGN CHOICE, log entry 9). -/
def executeKind (kind : Kind) (mode : Mode) (s : State) : State :=
  match kind, mode with
  | .loadAccumulator, .addressed m => loadAccumulator m s
  | .loadX, .addressed m => loadX m s
  | .storeAccumulator, .addressed m => storeAccumulator m s
  | .loadAccumulator, .implied => s
  | .loadX, .implied => s
  | .storeAccumulator, .implied => s
  | .transferAtoX, _ => transferAtoX s
  | .halt, _ => enterHalt s
  | .unrecognized, _ => s

/-- The body of `Step()` in R100's own order: fetch, increment, decode, execute, advance. -/
def sequencerStep (s : State) : State :=
  let op := readByte s.mem s.pc
  let fetched := pastOpcode s
  let d := decodeOpcode op
  let executed := executeKind d.kind d.mode fetched
  { executed with pc := add16 executed.pc (BitVec.ofNat 16 d.width) }

end Sys2Proof.Machine
end

