-- ==== Sys2Proof/Machine/Spelling.lean ====
section
/-! DEFINITION. The assembler spelling of instructions and operands (30_encoding.md R59). It has no part in any meaning. -/

namespace Sys2Proof.Machine

/-- One hexadecimal digit, capital as the listings of 95_test_vectors.md write it (DESIGN CHOICE, log entry 12). -/
def hexDigit (n : Nat) : String :=
  ["0", "1", "2", "3", "4", "5", "6", "7", "8", "9", "A", "B", "C", "D", "E", "F"].getD (n % 16) "0"

/-- A byte as two hexadecimal digits. -/
def hexByte (b : Byte) : String := hexDigit (b.toNat / 16) ++ hexDigit b.toNat

/-- An address as four hexadecimal digits. -/
def hexWord (w : Addr) : String := hexByte (highByte w) ++ hexByte (lowByte w)

/-- The operand syntax of each addressed mode (30_encoding.md R59). -/
def Operand.spelling : Operand → String
  | .immediate imm => "#$" ++ hexByte imm
  | .zeroPage b8 => "$" ++ hexByte b8
  | .zeroPageX b8 => "$" ++ hexByte b8 ++ ",X"
  | .zeroPageY b8 => "$" ++ hexByte b8 ++ ",Y"
  | .absolute a16 => "$" ++ hexWord a16
  | .absoluteX a16 => "$" ++ hexWord a16 ++ ",X"
  | .absoluteY a16 => "$" ++ hexWord a16 ++ ",Y"
  | .indirectX b8 => "($" ++ hexByte b8 ++ ",X)"
  | .indirectY b8 => "($" ++ hexByte b8 ++ "),Y"

/-- The spelling of an instruction (30_encoding.md R59); LoadX, which has no opcode, has none. -/
def spelling : Instr → Option String
  | .brk => some "BRK"
  | .staZp zz => some ("STA " ++ Operand.spelling (.zeroPage zz))
  | .staZpX zz => some ("STA " ++ Operand.spelling (.zeroPageX zz))
  | .ldaZp zz => some ("LDA " ++ Operand.spelling (.zeroPage zz))
  | .ldaImm imm => some ("LDA " ++ Operand.spelling (.immediate imm))
  | .tax => some "TAX"
  | .ldaAbs a16 => some ("LDA " ++ Operand.spelling (.absolute a16))
  | .loadX _ => none
  | .unrecognized op => some (".byte $" ++ hexByte op)

end Sys2Proof.Machine
end

