-- ==== Sys2Proof/Safety.lean ====
section
/-! DEFINITION. The terms in which statements about the core are made: the state invariant, the status byte after a load or
transfer, and running states. -/

namespace Sys2Proof.Machine

/-- The invariant of a state: memory is in its canonical form, with 16-bit addresses only (10_state.md R18). -/
def State.Inv (s : State) : Prop := Memory.wf s.mem = true

/-- A running core (60_exceptions.md R131). -/
abbrev State.Running (s : State) : Prop := s.halted = false

/-- The status byte after `UpdateZN(v)`, as the one-byte formula of 41_load_store_transfer.md R80 gives it. -/
def statusAfter (p v : Byte) : Byte :=
  (p &&& 0x7D#8) ||| (if v = 0x00#8 then 0x02#8 else 0x00#8) ||| (v &&& 0x80#8)

/-- Two status bytes that agree on the six reserved bits (10_state.md R13, R14). -/
def sameReserved (p q : Byte) : Prop := p &&& 0x7D#8 = q &&& 0x7D#8

end Sys2Proof.Machine
end

