-- ==== Sys2Proof/Certificates/Slice0/Obligations.lean ====
section
/-! DEFINITION. The statements for the provers, each with the rule of spec/ it formalises. A statement that rests on a choice of
the spec's own (a decision D<n>) or of the model says so in its docstring. -/

open Sys2Proof Sys2Proof.Machine

/-! ### Memory (20_memory.md) -/

/-- R31: `WriteByte` sets its cell, at every address, and changes no other cell. -/
def Obligations.WriteByteSetsExactlyOneCell : Prop :=
  ∀ (m : Memory) (a : Addr) (v : Byte),
    readByte (writeByte m a v) a = v ∧
    ∀ b : Addr, b ≠ a → readByte (writeByte m a v) b = readByte m b

/-- R32: `ReadWord` combines two bytes little-endian, the second address wrapping past 0xFFFF to 0x0000. -/
def Obligations.ReadWordIsLittleEndianAndWraps : Prop :=
  ∀ (m : Memory) (a : Addr),
    (readWord m a).toNat =
        (readByte m (BitVec.ofNat 16 ((a.toNat + 1) % 65536))).toNat * 256 + (readByte m a).toNat ∧
    (readWord m 0xFFFF#16).toNat = (readByte m 0x0000#16).toNat * 256 + (readByte m 0xFFFF#16).toNat

/-- R33: `WriteWord` writes the low byte at the address and the high byte at the next, wrapping, changes no other cell, and
`ReadWord` reads the word back, at 0xFFFF too. -/
def Obligations.WriteWordIsInverseOfReadWord : Prop :=
  ∀ (m : Memory) (a w : Addr),
    readWord (writeWord m a w) a = w ∧
    (readByte (writeWord m a w) a).toNat = w.toNat % 256 ∧
    (readByte (writeWord m a w) (a + 1#16)).toNat = w.toNat / 256 ∧
    ∀ b : Addr, b ≠ a → b ≠ a + 1#16 → readByte (writeWord m a w) b = readByte m b

/-- The model's canonical form of memory (log entry 5): canonical memories that read alike at all 65536 addresses (R18) are
equal data. -/
def Obligations.CanonicalMemoriesReadingAlikeAreEqual : Prop :=
  ∀ m n : Memory, Memory.wf m = true → Memory.wf n = true →
    (∀ a : Addr, readByte m a = readByte n a) → m = n

/-- The state right after reset meets the invariant: its memory is in the model's canonical form (log entry 5). -/
def Obligations.ResetStateMeetsInvariant : Prop := State.reset.Inv

/-- Every step, and every instruction whatever the halt bit, keeps memory in the model's canonical form (log entry 5):
addresses below 65536 (R18), strictly rising, no entry for a cell that reads as an unlisted one. -/
def Obligations.EveryStepKeepsMemoryCanonical : Prop :=
  ∀ s : State, s.Inv →
    (∀ t, step s = .next t → t.Inv) ∧ (∀ i t, exec i s = .next t → t.Inv)

/-- Every host operation of the table of 70_reset_and_hazards.md R150 that writes state keeps memory in the model's canonical
form (log entry 5): Construct, Load, Reset, Start, Step, Run (the state a run ends in, halted or with its fuel used up), WriteReg
and WriteMem. -/
def Obligations.HostOperationsKeepMemoryCanonical : Prop :=
  (∀ on, (construct on).Inv) ∧
  ∀ s : State, s.Inv →
    (resetCore s).Inv ∧ (start s).Inv ∧
    (∀ a v, (writeMem a v s).Inv) ∧ (∀ r v, (writeReg r v s).Inv) ∧
    (∀ bytes base t, load bytes base s = .next t → t.Inv) ∧
    (∀ bytes t, loadStandard bytes s = .next t → t.Inv) ∧
    (∀ t, step s = .next t → t.Inv) ∧
    ∀ n t, (run n s = .halted t ∨ run n s = .outOfFuel t) → t.Inv

/-! ### The alu's adders and the resolver (40_addressing_modes.md) -/

/-- R62: the two address adders wrap at the width of the operand; a byte is zero-extended. -/
def Obligations.AddressAddersWrap : Prop :=
  (∀ a b : Byte, (add8 a b).toNat = (a.toNat + b.toNat) % 256) ∧
  (∀ a b : Addr, (add16 a b).toNat = (a.toNat + b.toNat) % 65536) ∧
  (∀ b : Byte, (zext16 b).toNat = b.toNat)

/-- R64: Immediate has one operand byte, is the mode of 0xA9, and its effective address is the program counter itself. -/
def Obligations.ImmediateModeResolvesToPC : Prop :=
  AddrMode.immediate.width = 1 ∧
  decodeOpcode 0xA9#8 = { kind := .loadAccumulator, mode := .addressed .immediate, width := 1 } ∧
  ∀ (pc : Addr) (x y : Byte) (m : Memory), resolve .immediate pc x y m = pc

/-- R65, R66, R67: the zero-page modes: the operand byte, alone or plus X or Y modulo 256, is the address; their widths, and
the opcodes that use them (none uses ZeroPageY). -/
def Obligations.ZeroPageModesWrapInPageZero : Prop :=
  (∀ (pc : Addr) (x y : Byte) (m : Memory),
    (resolve .zeroPage pc x y m).toNat = (readByte m pc).toNat ∧
    (resolve .zeroPageX pc x y m).toNat = ((readByte m pc).toNat + x.toNat) % 256 ∧
    (resolve .zeroPageY pc x y m).toNat = ((readByte m pc).toNat + y.toNat) % 256) ∧
  AddrMode.zeroPage.width = 1 ∧ AddrMode.zeroPageX.width = 1 ∧ AddrMode.zeroPageY.width = 1 ∧
  (∀ op, (decodeOpcode op).mode = .addressed .zeroPage ↔ op = 0xA5#8 ∨ op = 0x85#8) ∧
  (∀ op, (decodeOpcode op).mode = .addressed .zeroPageX ↔ op = 0x95#8) ∧
  (∀ op, (decodeOpcode op).mode ≠ .addressed .zeroPageY)

/-- R68, R69, R70: the absolute modes: the word at the program counter (its second byte wrapping), alone or plus X or Y modulo
65536; their widths, and the opcodes that use them (0xAD for Absolute, none for the indexed two). -/
def Obligations.AbsoluteModesWrapAtSixteenBits : Prop :=
  (∀ (pc : Addr) (x y : Byte) (m : Memory) (w : Nat),
    w = (readByte m (BitVec.ofNat 16 (pc.toNat + 1))).toNat * 256 + (readByte m pc).toNat →
    (resolve .absolute pc x y m).toNat = w ∧
    (resolve .absoluteX pc x y m).toNat = (w + x.toNat) % 65536 ∧
    (resolve .absoluteY pc x y m).toNat = (w + y.toNat) % 65536) ∧
  AddrMode.absolute.width = 2 ∧ AddrMode.absoluteX.width = 2 ∧ AddrMode.absoluteY.width = 2 ∧
  (∀ op, (decodeOpcode op).mode = .addressed .absolute ↔ op = 0xAD#8) ∧
  (∀ op, (decodeOpcode op).mode ≠ .addressed .absoluteX) ∧
  (∀ op, (decodeOpcode op).mode ≠ .addressed .absoluteY)

/-- R71, R72: the indirect modes: the pointer's two bytes are read in the zero page, each address wrapping at 8 bits, so with a
pointer of 0xFF the high byte comes from 0x0000; IndirectX adds X to the pointer modulo 256, IndirectY adds Y to the pointed
word modulo 65536; their widths, and that no opcode uses them. -/
def Obligations.IndirectModesReadPointerInPageZero : Prop :=
  (∀ (pc : Addr) (x y : Byte) (m : Memory) (p : Nat),
    p = ((readByte m pc).toNat + x.toNat) % 256 →
    (resolve .indirectX pc x y m).toNat =
      (readByte m (BitVec.ofNat 16 ((p + 1) % 256))).toNat * 256 + (readByte m (BitVec.ofNat 16 p)).toNat) ∧
  (∀ (pc : Addr) (x y : Byte) (m : Memory) (p : Nat),
    p = (readByte m pc).toNat →
    (resolve .indirectY pc x y m).toNat =
      ((readByte m (BitVec.ofNat 16 ((p + 1) % 256))).toNat * 256 + (readByte m (BitVec.ofNat 16 p)).toNat
        + y.toNat) % 65536) ∧
  AddrMode.indirectX.width = 1 ∧ AddrMode.indirectY.width = 1 ∧
  (∀ op, (decodeOpcode op).mode ≠ .addressed .indirectX) ∧
  (∀ op, (decodeOpcode op).mode ≠ .addressed .indirectY)

/-! ### The decoder (30_encoding.md) -/

/-- R52: the opcode map: seven recognized bytes, and every other byte the fallback row. -/
def Obligations.OpcodeMapIsTheTable : Prop :=
  decodeOpcode 0x00#8 = { kind := .halt, mode := .implied, width := 0 } ∧
  decodeOpcode 0x85#8 = { kind := .storeAccumulator, mode := .addressed .zeroPage, width := 1 } ∧
  decodeOpcode 0x95#8 = { kind := .storeAccumulator, mode := .addressed .zeroPageX, width := 1 } ∧
  decodeOpcode 0xA5#8 = { kind := .loadAccumulator, mode := .addressed .zeroPage, width := 1 } ∧
  decodeOpcode 0xA9#8 = { kind := .loadAccumulator, mode := .addressed .immediate, width := 1 } ∧
  decodeOpcode 0xAA#8 = { kind := .transferAtoX, mode := .implied, width := 0 } ∧
  decodeOpcode 0xAD#8 = { kind := .loadAccumulator, mode := .addressed .absolute, width := 2 } ∧
  ∀ op : Byte, op ∉ recognizedOpcodes →
    decodeOpcode op = { kind := .unrecognized, mode := .implied, width := 0 }

/-- R53: the operand byte width of each of the ten modes, and the length of an instruction. -/
def Obligations.OperandWidthFollowsMode : Prop :=
  Mode.implied.width = 0 ∧
  (∀ m ∈ [AddrMode.immediate, .zeroPage, .zeroPageX, .zeroPageY, .indirectX, .indirectY],
    (Mode.addressed m).width = 1) ∧
  (∀ m ∈ [AddrMode.absolute, .absoluteX, .absoluteY], (Mode.addressed m).width = 2) ∧
  ∀ bytes i rest, decode bytes = .ok (i, rest) → bytes.length = (1 + i.mode.width) + rest.length

/-- R54: the opcode byte alone tells the length: where the operand bytes the opcode map asks for are there, the decoder takes
the opcode byte and exactly them, whatever they hold, and gives the kind and mode of the map; an unrecognized byte is always one
byte long. -/
def Obligations.OpcodeByteAloneTellsLength : Prop :=
  (∀ (op : Byte) (rest : List Byte), (decodeOpcode op).width ≤ rest.length →
    ∃ i, decode (op :: rest) = .ok (i, rest.drop (decodeOpcode op).width) ∧
      i.kind = (decodeOpcode op).kind ∧ i.mode = (decodeOpcode op).mode) ∧
  ∀ (op : Byte) (rest : List Byte), op ∉ recognizedOpcodes →
    decode (op :: rest) = .ok (.unrecognized op, rest)

/-- A few words written out from the encodings of R83 to R90 and R104, and an unrecognized byte: each decodes to the
instruction it stands for, with the operand bytes in their places. -/
def Obligations.WrittenOutWordsDecode : Prop :=
  decode [0x00#8] = .ok (.brk, []) ∧
  decode [0xAA#8] = .ok (.tax, []) ∧
  decode [0xA9#8, 0x10#8] = .ok (.ldaImm 0x10#8, []) ∧
  decode [0xA5#8, 0x10#8] = .ok (.ldaZp 0x10#8, []) ∧
  decode [0xAD#8, 0x34#8, 0x12#8] = .ok (.ldaAbs 0x1234#16, []) ∧
  decode [0x85#8, 0x10#8] = .ok (.staZp 0x10#8, []) ∧
  decode [0x95#8, 0x03#8] = .ok (.staZpX 0x03#8, []) ∧
  decode [0xA2#8, 0x05#8] = .ok (.unrecognized 0xA2#8, [0x05#8])

/-- Decode and encode agree: every well-formed instruction that has an encoding, with every operand, decodes from its bytes,
whatever follows them. -/
def Obligations.DecodeOfEncodeIsTheInstruction : Prop :=
  ∀ (i : Instr) (bytes rest : List Byte), i.WellFormed → encode i = some bytes →
    decode (bytes ++ rest) = .ok (i, rest)

/-- The other direction: what the decoder answers is well-formed and its encoding is exactly the bytes taken, so each
encoding has one meaning. -/
def Obligations.EncodeOfDecodeIsTheBytes : Prop :=
  ∀ (bytes : List Byte) (i : Instr) (rest : List Byte), decode bytes = .ok (i, rest) →
    i.WellFormed ∧ ∃ taken, encode i = some taken ∧ bytes = taken ++ rest

/-- No byte decodes to LoadX (the spec's own decision D15), and LoadX alone has no encoding. -/
def Obligations.NoByteDecodesToLoadX : Prop :=
  (∀ op, (decodeOpcode op).kind ≠ .loadX) ∧
  (∀ bytes rest m, decode bytes ≠ .ok (.loadX m, rest)) ∧
  ∀ i, encode i = none ↔ ∃ m, i = .loadX m

/-! ### The step (42_control_and_dispatch.md) -/

/-- When the core is running and the bytes at PC decode to an instruction, the step is that instruction's meaning in that
state, with nothing around it (the meaning makes both updates of PC). -/
def Obligations.StepRunsTheDecodedInstruction : Prop :=
  ∀ (s : State) (n : Nat) (i : Instr) (rest : List Byte), s.Running →
    decode (bytesFrom s.mem s.pc n) = .ok (i, rest) → step s = exec i s

/-- With the halt bit set no step exists: the spec's own decision D3 (10_state.md section 4), which the model answers with the
named fault coreHalted (log entry 3). -/
def Obligations.HaltedCoreTakesNoStep : Prop :=
  ∀ s : State, s.halted = true → step s = .fault .coreHalted ∧ ∀ t, step s ≠ .next t

/-- The step is the loop contract of 42_control_and_dispatch.md section 1, line by line: fetch, increment, decode by the opcode
map, the execute phase with the operand bytes read by Resolve, the advance. The halt bit in it is the spec's own decision D3
(10_state.md section 4). -/
def Obligations.StepRefinesLoopContract : Prop :=
  ∀ s : State, s.Running → step s = .next (sequencerStep s)

/-- Every instruction completes in every state, and every step of a running core answers a next state: nothing faults and
nothing is refused. -/
def Obligations.EveryInstructionCompletes : Prop :=
  (∀ (i : Instr) (s : State), ∃ t, exec i s = .next t) ∧
  ∀ s : State, s.Running → ∃ t, step s = .next t

/-- At the end of every step PC is the opcode's address plus one plus the width of the opcode map, modulo 65536. -/
def Obligations.StepAdvancesPCByLength : Prop :=
  ∀ s t : State, step s = .next t →
    t.pc.toNat = (s.pc.toNat + 1 + (decodeOpcode (readByte s.mem s.pc)).width) % 65536

/-- A step ends halted exactly when its opcode byte was 0x00. The halt bit is the spec's own decision D3 (10_state.md section
4). -/
def Obligations.StepHaltsExactlyOnBreak : Prop :=
  ∀ s t : State, step s = .next t → (t.halted = true ↔ readByte s.mem s.pc = 0x00#8)

/-- A run from a running core reaches a halted state exactly when some step of it fetches the byte 0x00. The halt bit and the
unbounded run are the spec's own decisions D3 and D18. -/
def Obligations.RunHaltsExactlyWhenBreakIsFetched : Prop :=
  ∀ s : State, s.Running →
    ((∃ n t, run n s = .halted t) ↔
      ∃ k u, Host.Core.run Sys2Proof.core k s = .next u ∧ u.Running ∧ readByte u.mem u.pc = 0x00#8)

/-- Running on: a run that has ended stays ended, at the same state, with any more fuel, and its final state is halted. -/
def Obligations.MoreFuelKeepsTheFinalState : Prop :=
  ∀ (n k : Nat) (s t : State), run n s = .halted t → t.halted = true ∧ run (n + k) s = .halted t

/-! ### Loads and the transfer (41_load_store_transfer.md) -/

/-- R80: UpdateZN sets Z exactly when the value is 0 and N exactly when bit 7 is set, keeps the six other bits, is the one-byte
formula, never leaves both set; no instruction but the loads and the transfer writes P. -/
def Obligations.UpdateZNWritesOnlyZAndN : Prop :=
  (∀ (v : Byte) (s : State),
    ((updateZN v s).p.getLsbD 1 = true ↔ v = 0x00#8) ∧
    ((updateZN v s).p.getLsbD 7 = v.getLsbD 7) ∧
    (∀ j, j ≠ 1 → j ≠ 7 → (updateZN v s).p.getLsbD j = s.p.getLsbD j) ∧
    updateZN v s = { s with p := statusAfter s.p v } ∧
    ¬ ((updateZN v s).p.getLsbD 1 = true ∧ (updateZN v s).p.getLsbD 7 = true)) ∧
  ∀ (i : Instr) (s t : State), exec i s = .next t →
    i.kind ≠ .loadAccumulator → i.kind ≠ .loadX → i.kind ≠ .transferAtoX → t.p = s.p

/-- R82: LoadAccumulator over every addressed mode, from a state with PC = operandPC, and the opcodes that reach it. -/
def Obligations.LoadAccumulatorOverEveryMode : Prop :=
  (∀ (mode : AddrMode) (s : State) (v : Byte),
    v = readByte s.mem (resolve mode s.pc s.x s.y s.mem) →
    loadAccumulator mode s = { s with a := v, p := statusAfter s.p v }) ∧
  ∀ op, (decodeOpcode op).kind = .loadAccumulator ↔ op = 0xA9#8 ∨ op = 0xA5#8 ∨ op = 0xAD#8

/-- R83: LDA #imm: A is the operand byte, Z and N follow it, PC ends two past the opcode; the encoding is `A9 ii`; with the
opcode at 0xFFFF the operand is the byte at 0x0000 and PC ends at 0x0001. -/
def Obligations.LdaImmediateResult : Prop :=
  (∀ (imm : Byte) (s : State),
    exec (.ldaImm imm) s = .next { s with a := imm, p := statusAfter s.p imm, pc := s.pc + 2#16 }) ∧
  (∀ s : State, s.Running → readByte s.mem s.pc = 0xA9#8 →
    step s = exec (.ldaImm (readByte s.mem (s.pc + 1#16))) s) ∧
  (∀ s : State, s.Running → readByte s.mem 0xFFFF#16 = 0xA9#8 → s.pc = 0xFFFF#16 →
    step s = .next { s with
      a := readByte s.mem 0x0000#16
      p := statusAfter s.p (readByte s.mem 0x0000#16)
      pc := 0x0001#16 })

/-- R84: LDA zp: A is the byte at the zero-page address (X is not added), Z and N follow it, PC ends two past the opcode; the
encoding is `A5 zz`. -/
def Obligations.LdaZeroPageResult : Prop :=
  (∀ (zz : Byte) (s : State) (v : Byte),
    v = readByte s.mem (BitVec.ofNat 16 zz.toNat) →
    exec (.ldaZp zz) s = .next { s with a := v, p := statusAfter s.p v, pc := s.pc + 2#16 }) ∧
  ∀ s : State, s.Running → readByte s.mem s.pc = 0xA5#8 →
    step s = exec (.ldaZp (readByte s.mem (s.pc + 1#16))) s

/-- R85: LDA abs: A is the byte at the 16-bit address, Z and N follow it, PC ends three past the opcode; the encoding is
`AD ll hh`; with the opcode at 0xFFFE the high address byte is at 0x0000 and PC ends at 0x0001. -/
def Obligations.LdaAbsoluteResult : Prop :=
  (∀ (a16 : Addr) (s : State) (v : Byte),
    v = readByte s.mem a16 →
    exec (.ldaAbs a16) s = .next { s with a := v, p := statusAfter s.p v, pc := s.pc + 3#16 }) ∧
  (∀ (s : State) (a16 : Addr), s.Running → readByte s.mem s.pc = 0xAD#8 →
    a16.toNat = (readByte s.mem (s.pc + 2#16)).toNat * 256 + (readByte s.mem (s.pc + 1#16)).toNat →
    step s = exec (.ldaAbs a16) s) ∧
  (∀ (s : State) (a16 : Addr), s.Running → readByte s.mem 0xFFFE#16 = 0xAD#8 → s.pc = 0xFFFE#16 →
    a16.toNat = (readByte s.mem 0x0000#16).toNat * 256 + (readByte s.mem 0xFFFF#16).toNat →
    ∃ t, step s = .next t ∧ t.a = readByte s.mem a16 ∧ t.pc = 0x0001#16)

/-- LoadX, which no byte encodes (the spec's own decision D15), invoked directly with PC = operandPC: X is the byte at the
resolved address, the old X indexing it, and Z and N follow it. That PC is left as it was is the model's reading (log
entry 4). -/
def Obligations.LoadXResult : Prop :=
  ∀ (mode : AddrMode) (s : State) (v : Byte),
    v = readByte s.mem (resolve mode s.pc s.x s.y s.mem) →
    exec (.loadX mode) s = .next { s with x := v, p := statusAfter s.p v }

/-- R87: TAX: X is A, Z and N follow the value, A is kept, PC ends one past the opcode; the encoding is `AA`. -/
def Obligations.TaxResult : Prop :=
  (∀ s : State, exec .tax s = .next { s with x := s.a, p := statusAfter s.p s.a, pc := s.pc + 1#16 }) ∧
  ∀ s : State, s.Running → readByte s.mem s.pc = 0xAA#8 → step s = exec .tax s

/-- The frame of the three LDA instructions: X, Y, the halt bit and every byte of memory unchanged, and of P only bits 1
and 7 written. -/
def Obligations.LdaFrame : Prop :=
  ∀ (i : Instr) (s t : State),
    ((∃ imm, i = .ldaImm imm) ∨ (∃ zz, i = .ldaZp zz) ∨ (∃ a16, i = .ldaAbs a16)) →
    exec i s = .next t →
      t.x = s.x ∧ t.y = s.y ∧ t.halted = s.halted ∧ sameReserved t.p s.p ∧
      ∀ b : Addr, readByte t.mem b = readByte s.mem b

/-- The frame of TAX and LoadX: A, Y, the halt bit and every byte of memory unchanged, and of P only bits 1 and 7
written. -/
def Obligations.WritesToXFrame : Prop :=
  ∀ (i : Instr) (s t : State),
    (i = .tax ∨ ∃ m, i = .loadX m) →
    exec i s = .next t →
      t.a = s.a ∧ t.y = s.y ∧ t.halted = s.halted ∧ sameReserved t.p s.p ∧
      ∀ b : Addr, readByte t.mem b = readByte s.mem b

/-! ### Stores (41_load_store_transfer.md) -/

/-- R88: StoreAccumulator over every addressed mode, from a state with PC = operandPC: A is stored at the resolved address, and
nothing else changes, status included; and the opcodes that reach it. -/
def Obligations.StoreAccumulatorOverEveryMode : Prop :=
  (∀ (mode : AddrMode) (s : State),
    storeAccumulator mode s = { s with mem := (storeAccumulator mode s).mem } ∧
    ∀ b : Addr, readByte (storeAccumulator mode s).mem b =
      if b = resolve mode s.pc s.x s.y s.mem then s.a else readByte s.mem b) ∧
  ∀ op, (decodeOpcode op).kind = .storeAccumulator ↔ op = 0x85#8 ∨ op = 0x95#8

/-- R89: STA zp: A is stored at the zero-page address, exactly one byte is written (so none at zz + X), nothing else changes but
PC, which ends two past the opcode; the encoding is `85 zz`. -/
def Obligations.StaZeroPageResult : Prop :=
  (∀ (zz : Byte) (s : State), ∃ t,
    exec (.staZp zz) s = .next t ∧
    t.a = s.a ∧ t.x = s.x ∧ t.y = s.y ∧ t.p = s.p ∧ t.halted = s.halted ∧ t.pc = s.pc + 2#16 ∧
    ∀ b : Addr, readByte t.mem b = if b.toNat = zz.toNat then s.a else readByte s.mem b) ∧
  ∀ s : State, s.Running → readByte s.mem s.pc = 0x85#8 →
    step s = exec (.staZp (readByte s.mem (s.pc + 1#16))) s

/-- R90: STA zp,X: A is stored at the zero-page address plus X, modulo 256; nothing else changes but PC, which ends two past
the opcode; the encoding is `95 zz`. -/
def Obligations.StaZeroPageXResult : Prop :=
  (∀ (zz : Byte) (s : State), ∃ t,
    exec (.staZpX zz) s = .next t ∧
    t.a = s.a ∧ t.x = s.x ∧ t.y = s.y ∧ t.p = s.p ∧ t.halted = s.halted ∧ t.pc = s.pc + 2#16 ∧
    ∀ b : Addr, readByte t.mem b =
      if b.toNat = (zz.toNat + s.x.toNat) % 256 then s.a else readByte s.mem b) ∧
  ∀ s : State, s.Running → readByte s.mem s.pc = 0x95#8 →
    step s = exec (.staZpX (readByte s.mem (s.pc + 1#16))) s

/-- R91: no store changes P, A or X, and each writes exactly one byte, A, at its effective address; Y and the halt bit are
unchanged too. The address is the one the meaning computes: the operand's effective address in the state past the opcode. -/
def Obligations.StoreFrame : Prop :=
  ∀ (i : Instr) (o : Operand) (s t : State),
    ((∃ zz, i = .staZp zz ∧ o = .zeroPage zz) ∨ (∃ zz, i = .staZpX zz ∧ o = .zeroPageX zz)) →
    exec i s = .next t →
      t.p = s.p ∧ t.a = s.a ∧ t.x = s.x ∧ t.y = s.y ∧ t.halted = s.halted ∧
      ∀ ea : Addr, operandAddress o (pastOpcode s) = ea →
        readByte t.mem ea = s.a ∧ ∀ b : Addr, b ≠ ea → readByte t.mem b = readByte s.mem b

/-- The step after a store into the byte at its own next PC fetches the stored byte as its opcode: fetch sees every earlier
store. Both stores, wherever the next PC lies in the zero page. -/
def Obligations.NextFetchSeesTheStoredByte : Prop :=
  ∀ (s t : State) (zz : Byte),
    s.Running →
    (fetchInstr s.mem s.pc = .staZp zz ∧ zext16 zz = s.pc + 2#16 ∨
      fetchInstr s.mem s.pc = .staZpX zz ∧ zext16 (add8 zz s.x) = s.pc + 2#16) →
    step s = .next t →
      t.pc = s.pc + 2#16 ∧
      step t = exec (decodeFields s.a (readByte s.mem (s.pc + 3#16)) (readByte s.mem (s.pc + 4#16))) t

/-! ### BRK and the unrecognized bytes (42_control_and_dispatch.md) -/

/-- BRK, opcode 0x00, sets the halt bit, leaves PC one past the opcode and changes nothing else, pushing nothing and reading no
vector: the spec's own decisions D3 and D6. -/
def Obligations.BreakHaltsAndNothingElse : Prop :=
  (∀ s : State, exec .brk s = .next { s with halted := true, pc := s.pc + 1#16 }) ∧
  ∀ s : State, s.Running → readByte s.mem s.pc = 0x00#8 → step s = exec .brk s

/-- R55, R105: every byte outside the table is a one-byte no-op: PC advances by one, modulo 65536, and nothing else changes; it
neither halts nor stops. -/
def Obligations.UnrecognizedByteIsNoOp : Prop :=
  (∀ (op : Byte) (s : State), exec (.unrecognized op) s = .next { s with pc := s.pc + 1#16 }) ∧
  ∀ s : State, s.Running → readByte s.mem s.pc ∉ recognizedOpcodes →
    step s = .next { s with pc := s.pc + 1#16 }

/-- The frame of BRK and of an unrecognized byte: A, X, Y, P and every byte of memory unchanged, and by an unrecognized byte the
halt bit too. That BRK does nothing beyond halting is the spec's own decision D6, the halt bit its decision D3. -/
def Obligations.BreakAndNoOpFrame : Prop :=
  ∀ (i : Instr) (s t : State),
    (i = .brk ∨ ∃ op, i = .unrecognized op) →
    exec i s = .next t →
      t.a = s.a ∧ t.x = s.x ∧ t.y = s.y ∧ t.p = s.p ∧
      (i ≠ .brk → t.halted = s.halted) ∧
      ∀ b : Addr, readByte t.mem b = readByte s.mem b

/-! ### The whole machine -/

/-- The access matrix of 10_state.md section 7, its columns of writes: A is written only by LoadAccumulator, X only by TAX and
LoadX, Y by no instruction, P only by the loads and the transfer and there only bits 1 and 7, memory only by the stores, the
halt bit only by BRK, and PC by no operation of LoadX. The halt bit is the spec's own decision D3 and that BRK does nothing beyond
setting it its decision D6; that LoadX leaves PC as it was is the model's reading (log entry 4). -/
def Obligations.InstructionsWriteOnlyWhatTheMatrixSays : Prop :=
  ∀ (i : Instr) (s t : State), exec i s = .next t →
    (i.kind ≠ .loadAccumulator → t.a = s.a) ∧
    (i.kind ≠ .transferAtoX → i.kind ≠ .loadX → t.x = s.x) ∧
    t.y = s.y ∧
    (i.kind ≠ .loadAccumulator → i.kind ≠ .transferAtoX → i.kind ≠ .loadX → t.p = s.p) ∧
    (∀ j, j ≠ 1 → j ≠ 7 → t.p.getLsbD j = s.p.getLsbD j) ∧
    (i.kind ≠ .storeAccumulator → t.mem = s.mem) ∧
    (i.kind ≠ .halt → t.halted = s.halted) ∧
    (i.kind = .loadX → t.pc = s.pc)

/-- A step uses its listed accesses alone (20_memory.md section 4; the order is the spec's own decision D9): with any memory that
agrees on the bytes listed as read, the step ends with the same registers and halt bit, makes the same accesses, and leaves the
same byte in every cell listed as written; and a cell not listed as written keeps its byte. -/
def Obligations.StepUsesOnlyItsListedAccesses : Prop :=
  ∀ (s t : State) (m : Memory), step s = .next t →
    (∀ a : Addr, Access.read a ∈ stepAccesses s → readByte m a = readByte s.mem a) →
    (∃ u, step { s with mem := m } = .next u ∧
      u.a = t.a ∧ u.x = t.x ∧ u.y = t.y ∧ u.p = t.p ∧ u.pc = t.pc ∧ u.halted = t.halted ∧
      stepAccesses { s with mem := m } = stepAccesses s ∧
      ∀ b : Addr, Access.write b ∈ stepAccesses s → readByte u.mem b = readByte t.mem b) ∧
    ∀ b : Addr, Access.write b ∉ stepAccesses s → readByte t.mem b = readByte s.mem b

/-- Y is seen by no program: from two states that differ in Y alone, runs of any length step alike, and the states they reach
differ in Y alone, each with the Y it began with. -/
def Obligations.NoProgramSeesY : Prop :=
  ∀ (k : Nat) (s t : State) (v : Byte), Host.Core.run Sys2Proof.core k s = .next t →
    t.y = s.y ∧ Host.Core.run Sys2Proof.core k { s with y := v } = .next { t with y := v }

/-- The core reads no flag: from two states that differ in P alone, runs of any length step alike, and the states they reach
differ in P alone. -/
def Obligations.NoProgramSeesP : Prop :=
  ∀ (k : Nat) (s t : State) (q : Byte), Host.Core.run Sys2Proof.core k s = .next t →
    ∃ r, Host.Core.run Sys2Proof.core k { s with p := q } = .next { t with p := r }

/-! ### Reset, load and the host (70_reset_and_hazards.md) -/

/-- The state right after reset is Construct followed by Reset with nothing loaded: A, X and P zero, PC the word of the empty
vector, every cell zero, the halt bit clear. The halt bit is the spec's own decision D3; which Y it holds is the model's choice
(log entry 1) and is not stated. -/
def Obligations.ResetStateIsConstructThenReset : Prop :=
  State.reset = resetCore (construct Config.powerOn) ∧
  State.reset.a = 0x00#8 ∧ State.reset.x = 0x00#8 ∧ State.reset.p = 0x00#8 ∧ State.reset.pc = 0x0000#16 ∧
  State.reset.halted = false ∧ ∀ b : Addr, readByte State.reset.mem b = 0x00#8

/-- Reset, in every state: A, X and P zero, PC the little-endian word at 0xFFFC, Y and memory unchanged. That it clears the
halt bit is the spec's own decision D3. -/
def Obligations.ResetLoadsVectorAndKeepsY : Prop :=
  ∀ s : State,
    (resetCore s).a = 0x00#8 ∧ (resetCore s).x = 0x00#8 ∧ (resetCore s).p = 0x00#8 ∧
    (resetCore s).pc.toNat = (readByte s.mem 0xFFFD#16).toNat * 256 + (readByte s.mem 0xFFFC#16).toNat ∧
    (resetCore s).y = s.y ∧ (resetCore s).mem = s.mem ∧ (resetCore s).halted = false

/-- Construct, whatever the power-on values: memory zero, the registers those values, the core halted; and Reset right after it
runs into the 0x00 at 0x0000 and halts with PC = 0x0001. The power-on halt bit is the spec's own decision D3, Reset before the
vector is populated its decision D13. -/
def Obligations.ConstructionIsZeroMemoryAndHalted : Prop :=
  ∀ on : PowerOn,
    (construct on).a = on.a ∧ (construct on).x = on.x ∧ (construct on).y = on.y ∧ (construct on).p = on.p ∧
    (construct on).pc = on.pc ∧ (∀ b : Addr, readByte (construct on).mem b = 0x00#8) ∧
    (construct on).halted = true ∧
    ∃ t, step (resetCore (construct on)) = .next t ∧ t.halted = true ∧ t.pc = 0x0001#16 ∧ t.y = on.y

/-- Load places the bytes from the base on, then writes the base into the reset vector, over the program's own bytes where it
covers them; no other cell, no register and not the halt bit changes. The base as the load state is the spec's own decision D8,
the bound on it D7. -/
def Obligations.LoadPlacesBytesThenVector : Prop :=
  ∀ (bytes : List Byte) (base : Addr) (s : State), base.toNat + bytes.length ≤ 65536 →
    ∃ t, load bytes base s = .next t ∧
      t.a = s.a ∧ t.x = s.x ∧ t.y = s.y ∧ t.p = s.p ∧ t.pc = s.pc ∧ t.halted = s.halted ∧
      readWord t.mem 0xFFFC#16 = base ∧
      ∀ b : Addr, b ≠ 0xFFFC#16 → b ≠ 0xFFFD#16 →
        readByte t.mem b =
          if base.toNat ≤ b.toNat ∧ b.toNat < base.toNat + bytes.length
          then bytes.getD (b.toNat - base.toNat) 0x00#8 else readByte s.mem b

/-- Load is refused exactly when the bytes would pass the end of memory, and then there is no next state, so nothing is
written: the spec's own decision D7. -/
def Obligations.LoadPastTheEndIsRefused : Prop :=
  ∀ (bytes : List Byte) (base : Addr) (s : State),
    (load bytes base s = .refused .loadPastEnd ↔ 65536 < base.toNat + bytes.length) ∧
    (65536 < base.toNat + bytes.length → ∀ t, load bytes base s ≠ .next t)

/-- The standard load path of 70_reset_and_hazards.md section 2: a program of at most 0x8000 bytes is placed from 0x8000 on and the vector reads 0x8000 little-endian,
whatever the program's own bytes there; a longer program is refused. The refusal is the spec's own decision D7 (section 2), the
base as the load state its decision D8. -/
def Obligations.StandardLoadPath : Prop :=
  (∀ (bytes : List Byte) (s : State), bytes.length ≤ 0x8000 →
    ∃ t, loadStandard bytes s = .next t ∧
      readByte t.mem 0xFFFC#16 = 0x00#8 ∧ readByte t.mem 0xFFFD#16 = 0x80#8 ∧
      ∀ b : Addr, b ≠ 0xFFFC#16 → b ≠ 0xFFFD#16 → 0x8000 ≤ b.toNat → b.toNat < 0x8000 + bytes.length →
        readByte t.mem b = bytes.getD (b.toNat - 0x8000) 0x00#8) ∧
  ∀ (bytes : List Byte) (s : State), 0x8000 < bytes.length →
    loadStandard bytes s = .refused .loadPastEnd

/-- The boot sequence, whatever the power-on values and for every load that is accepted (base + n at most 0x10000): Construct,
Load and Reset leave a running core with A, X and P zero, Y its power-on value and PC at the base; and where the bytes of the
program's first instruction do not cover 0xFFFC or 0xFFFD, which Load overwrites with the vector, the first step runs that
instruction. The steps it joins carry the spec's own decisions D2, D3, D7 and D8. -/
def Obligations.BootReachesTheProgram : Prop :=
  ∀ (on : PowerOn) (bytes : List Byte) (base : Addr), base.toNat + bytes.length ≤ 0x10000 →
    ∃ t, load bytes base (construct on) = .next t ∧
      (resetCore t).a = 0x00#8 ∧ (resetCore t).x = 0x00#8 ∧ (resetCore t).p = 0x00#8 ∧ (resetCore t).y = on.y ∧
      (resetCore t).pc = base ∧ (resetCore t).Running ∧
      ∀ i rest, decode bytes = .ok (i, rest) →
        (∀ k, k < 1 + i.mode.width → base.toNat + k ≠ 0xFFFC ∧ base.toNat + k ≠ 0xFFFD) →
        step (resetCore t) = exec i (resetCore t)

/-- Start clears the halt bit and changes nothing else: the spec's own decision D14. -/
def Obligations.StartOnlyClearsHalt : Prop :=
  ∀ s : State, (start s).Running ∧ { start s with halted := s.halted } = s

/-- A host read gives the register's, the memory cell's or the halt bit's current value; a host write of a register stores the
value unchanged, the reserved bits of P included, and touches no other register, no memory and not the halt bit; a host write of
a memory byte sets that cell alone: the spec's own decisions D11 and D20. -/
def Obligations.HostWritesReadBackUnchanged : Prop :=
  (∀ s : State,
    readReg .a s = s.a ∧ readReg .x s = s.x ∧ readReg .y s = s.y ∧ readReg .p s = s.p ∧ readReg .pc s = s.pc ∧
    readHalted s = s.halted ∧ ∀ a : Addr, readMem a s = readByte s.mem a) ∧
  (∀ (r : Reg) (v : BitVec r.width) (s : State),
    readReg r (writeReg r v s) = v ∧
    (∀ q : Reg, q ≠ r → readReg q (writeReg r v s) = readReg q s) ∧
    (writeReg r v s).mem = s.mem ∧ readHalted (writeReg r v s) = s.halted) ∧
  ∀ (a : Addr) (v : Byte) (s : State),
    readMem a (writeMem a v s) = v ∧
    (∀ b : Addr, b ≠ a → readMem b (writeMem a v s) = readMem b s) ∧
    { writeMem a v s with mem := s.mem } = s

/-! ### What the decoder over a list rejects -/

/-- The decoder over a list of bytes rejects, by name, the empty list and a list that ends before the operand bytes its opcode
byte asks for, and nothing else: the model's choice, of which the spec does not speak (DESIGN CHOICE, log entry 13). -/
def Obligations.DecoderRejectsOnlyCutShortLists : Prop :=
  decode [] = .error .noOpcode ∧
  ∀ (op : Byte) (rest : List Byte) (e : DecodeError),
    decode (op :: rest) = .error e ↔ e = .truncated op ∧ rest.length < (decodeOpcode op).width
end

