-- ==== Sys2Proof/Laws/Memory.lean ====
section
/-! SUPPORT. The laws of memory: a read after a write, the canonical form, and equality of canonical memories. -/

namespace Sys2Proof.Machine

/-! ### Reading and writing one cell of the list -/

@[simp] theorem Memory.read_nil (a : Nat) : Memory.read [] a = Config.emptyCell := rfl

theorem Memory.read_cons (k : Nat) (v : Byte) (rest : Memory) (a : Nat) :
    Memory.read ((k, v) :: rest) a = if k = a then v else Memory.read rest a := rfl

theorem Memory.read_without_self (m : Memory) (a : Nat) :
    Memory.read (Memory.without m a) a = Config.emptyCell := by
  unfold Memory.without
  induction m with
  | nil => rfl
  | cons c rest ih =>
    obtain ⟨k, w⟩ := c
    by_cases h : k = a
    · simpa [List.filter_cons, h] using ih
    · simpa [List.filter_cons, h, Memory.read_cons] using ih

theorem Memory.read_without_other (m : Memory) {a b : Nat} (h : b ≠ a) :
    Memory.read (Memory.without m a) b = Memory.read m b := by
  unfold Memory.without
  induction m with
  | nil => rfl
  | cons c rest ih =>
    obtain ⟨k, w⟩ := c
    by_cases hk : k = a
    · have hb : a ≠ b := Ne.symm h
      simpa [List.filter_cons, hk, Memory.read_cons, hb] using ih
    · simp [hk, Memory.read_cons, ih]

/-- An entry put into memory without one for its address is the one read there, and no other address reads differently. -/
theorem Memory.read_place (m : Memory) (a : Nat) (v : Byte) (b : Nat)
    (h : ∀ c ∈ m, c.1 ≠ a) :
    Memory.read (Memory.place m a v) b = if b = a then v else Memory.read m b := by
  induction m with
  | nil => simp [Memory.place, Memory.read_cons, eq_comm]
  | cons c rest ih =>
    obtain ⟨k, w⟩ := c
    have hk : k ≠ a := h (k, w) (by simp)
    have ih' := ih (fun c hc => h c (by simp [hc]))
    unfold Memory.place
    split
    · simp [Memory.read_cons, eq_comm]
    · rw [Memory.read_cons, ih', Memory.read_cons]
      by_cases hb : b = a
      · subst hb; simp [hk]
      · simp [hb]

theorem Memory.without_keys (m : Memory) (a : Nat) : ∀ c ∈ Memory.without m a, c.1 ≠ a := by
  intro c hc
  simp only [Memory.without, List.mem_filter, bne_iff_ne] at hc
  exact hc.2

/-- Everything a write does to what memory reads as, whatever its form. -/
theorem Memory.read_write (m : Memory) (a : Nat) (v : Byte) (b : Nat) :
    Memory.read (Memory.write m a v) b = if b = a then v else Memory.read m b := by
  unfold Memory.write
  by_cases hv : v = Config.emptyCell
  · by_cases hb : b = a
    · simp [hv, hb, Memory.read_without_self]
    · simp [hv, hb, Memory.read_without_other m hb]
  · rw [if_neg hv, Memory.read_place _ _ _ _ (Memory.without_keys m a)]
    by_cases hb : b = a
    · simp [hb]
    · simp [hb, Memory.read_without_other m hb]

/-! ### The canonical form -/

theorem Memory.wf_cons (k : Nat) (v : Byte) (rest : Memory) :
    Memory.wf ((k, v) :: rest) = true ↔
      k < 65536 ∧ v ≠ Config.emptyCell ∧ (∀ c ∈ rest, k < c.1) ∧ Memory.wf rest = true := by
  simp [Memory.wf, and_assoc]

theorem Memory.wf_without (m : Memory) (a : Nat) (h : Memory.wf m = true) :
    Memory.wf (Memory.without m a) = true := by
  induction m with
  | nil => rfl
  | cons c rest ih =>
    obtain ⟨k, w⟩ := c
    obtain ⟨hk, hw, hlt, hrest⟩ := (Memory.wf_cons k w rest).mp h
    have ih' := ih hrest
    unfold Memory.without at ih' ⊢
    by_cases hka : k = a
    · simpa [List.filter_cons, hka] using ih'
    · rw [List.filter_cons_of_pos (by simpa using hka)]
      exact (Memory.wf_cons _ _ _).mpr
        ⟨hk, hw, fun c hc => hlt c (List.mem_filter.mp hc).1, ih'⟩

theorem Memory.mem_place (m : Memory) (a : Nat) (v : Byte) :
    ∀ c ∈ Memory.place m a v, c = (a, v) ∨ c ∈ m := by
  induction m with
  | nil => intro c hc; left; simpa [Memory.place] using hc
  | cons d rest ih =>
    obtain ⟨k, w⟩ := d
    intro c hc
    unfold Memory.place at hc
    split at hc
    · simpa using hc
    · rcases List.mem_cons.mp hc with rfl | hc
      · simp
      · rcases ih c hc with h | h
        · exact .inl h
        · exact .inr (by simp [h])

theorem Memory.wf_place (m : Memory) (a : Nat) (v : Byte) (h : Memory.wf m = true)
    (ha : a < 65536) (hv : v ≠ Config.emptyCell) (hne : ∀ c ∈ m, c.1 ≠ a) :
    Memory.wf (Memory.place m a v) = true := by
  induction m with
  | nil => exact (Memory.wf_cons _ _ _).mpr ⟨ha, hv, by simp, rfl⟩
  | cons d rest ih =>
    obtain ⟨k, w⟩ := d
    obtain ⟨hk, hw, hlt, hrest⟩ := (Memory.wf_cons k w rest).mp h
    have hka : k ≠ a := hne (k, w) (by simp)
    unfold Memory.place
    split
    · rename_i hak
      refine (Memory.wf_cons _ _ _).mpr ⟨ha, hv, ?_, h⟩
      intro c hc
      rcases List.mem_cons.mp hc with rfl | hc
      · exact hak
      · exact lt_trans hak (hlt c hc)
    · rename_i hak
      refine (Memory.wf_cons _ _ _).mpr ⟨hk, hw, ?_, ih hrest (fun c hc => hne c (by simp [hc]))⟩
      intro c hc
      rcases Memory.mem_place rest a v c hc with rfl | hc
      · simp only; omega
      · exact hlt c hc

theorem Memory.wf_write (m : Memory) (a : Nat) (v : Byte) (h : Memory.wf m = true) (ha : a < 65536) :
    Memory.wf (Memory.write m a v) = true := by
  unfold Memory.write
  split
  · exact Memory.wf_without m a h
  · rename_i hv
    exact Memory.wf_place _ a v (Memory.wf_without m a h) ha hv (Memory.without_keys m a)

/-- An address below every entry's reads as an unlisted one. -/
theorem Memory.read_below (m : Memory) (a : Nat) (h : ∀ c ∈ m, a < c.1) :
    Memory.read m a = Config.emptyCell := by
  induction m with
  | nil => rfl
  | cons c rest ih =>
    obtain ⟨k, w⟩ := c
    have hk : a < k := h (k, w) (by simp)
    rw [Memory.read_cons, if_neg (by omega)]
    exact ih (fun c hc => h c (by simp [hc]))

/-- Canonical memories that read the same at every natural number are the same list. -/
theorem Memory.ext_of_wf (m n : Memory) (hm : Memory.wf m = true) (hn : Memory.wf n = true)
    (h : ∀ a, Memory.read m a = Memory.read n a) : m = n := by
  induction m generalizing n with
  | nil =>
    cases n with
    | nil => rfl
    | cons d ns =>
      obtain ⟨j, u⟩ := d
      obtain ⟨-, hu, -, -⟩ := (Memory.wf_cons j u ns).mp hn
      have := h j
      simp [Memory.read_cons] at this
      exact absurd this.symm hu
  | cons c ms ih =>
    obtain ⟨k, w⟩ := c
    obtain ⟨-, hw, hlt, hms⟩ := (Memory.wf_cons k w ms).mp hm
    cases n with
    | nil =>
      have := h k
      simp [Memory.read_cons] at this
      exact absurd this hw
    | cons d ns =>
      obtain ⟨j, u⟩ := d
      obtain ⟨-, hu, hlt', hns⟩ := (Memory.wf_cons j u ns).mp hn
      have hkj : k = j := by
        rcases lt_trichotomy k j with hlt1 | heq | hgt
        · have hk := h k
          rw [Memory.read_cons, if_pos rfl, Memory.read_below] at hk
          · exact absurd hk hw
          · intro c hc
            rcases List.mem_cons.mp hc with rfl | hc
            · exact hlt1
            · exact lt_trans hlt1 (hlt' c hc)
        · exact heq
        · have hj := h j
          rw [Memory.read_below, Memory.read_cons, if_pos rfl] at hj
          · exact absurd hj.symm hu
          · intro c hc
            rcases List.mem_cons.mp hc with rfl | hc
            · exact hgt
            · exact lt_trans hgt (hlt c hc)
      subst hkj
      have hwu : w = u := by simpa [Memory.read_cons] using h k
      subst hwu
      congr 1
      refine ih ns hms hns (fun a => ?_)
      by_cases hka : k = a
      · subst hka
        rw [Memory.read_below ms k hlt, Memory.read_below ns k hlt']
      · simpa [Memory.read_cons, hka] using h a

/-- A canonical memory reads as an unlisted cell past the address space. -/
theorem Memory.read_past_end (m : Memory) (h : Memory.wf m = true) (a : Nat) (ha : 65536 ≤ a) :
    Memory.read m a = Config.emptyCell := by
  induction m with
  | nil => rfl
  | cons c rest ih =>
    obtain ⟨k, w⟩ := c
    obtain ⟨hk, -, -, hrest⟩ := (Memory.wf_cons k w rest).mp h
    rw [Memory.read_cons, if_neg (by omega)]
    exact ih hrest

/-! ### The operations over memory keep the canonical form -/

theorem writeByte_wf (m : Memory) (a : Addr) (v : Byte) (h : Memory.wf m = true) :
    Memory.wf (writeByte m a v) = true :=
  Memory.wf_write m a.toNat v h a.isLt

theorem writeWord_wf (m : Memory) (a w : Addr) (h : Memory.wf m = true) :
    Memory.wf (writeWord m a w) = true :=
  writeByte_wf _ _ _ (writeByte_wf _ _ _ h)

theorem copyBytes_wf (bs : List Byte) (a : Addr) (m : Memory) (h : Memory.wf m = true) :
    Memory.wf (copyBytes bs a m) = true := by
  induction bs generalizing a m with
  | nil => exact h
  | cons b bs ih => exact ih _ _ (writeByte_wf _ _ _ h)

theorem reset_mem_wf : Memory.wf State.reset.mem = true := rfl

end Sys2Proof.Machine
end

