-- ==== Sys2Proof/Laws/Words.lean ====
section
/-! SUPPORT. The laws of the adders, of byte order and of the status bits. -/

namespace Sys2Proof

theorem joinBytes_toNat (hi lo : Byte) : (joinBytes hi lo).toNat = hi.toNat * 256 + lo.toNat := by
  unfold joinBytes
  rw [BitVec.toNat_append]
  have := lo.isLt
  rw [← Nat.shiftLeft_add_eq_or_of_lt (by omega)]
  simp [Nat.shiftLeft_eq]

theorem lowByte_toNat (w : Addr) : (lowByte w).toNat = w.toNat % 256 := by
  simp [lowByte, BitVec.extractLsb'_toNat]

theorem highByte_toNat (w : Addr) : (highByte w).toNat = w.toNat / 256 := by
  have := w.isLt
  simp only [highByte, BitVec.extractLsb'_toNat, Nat.shiftRight_eq_div_pow]
  omega

@[simp] theorem joinBytes_highByte_lowByte (w : Addr) : joinBytes (highByte w) (lowByte w) = w := by
  apply BitVec.eq_of_toNat_eq
  rw [joinBytes_toNat, highByte_toNat, lowByte_toNat]
  omega

@[simp] theorem lowByte_joinBytes (hi lo : Byte) : lowByte (joinBytes hi lo) = lo := by
  apply BitVec.eq_of_toNat_eq
  have := lo.isLt
  rw [lowByte_toNat, joinBytes_toNat]
  omega

@[simp] theorem highByte_joinBytes (hi lo : Byte) : highByte (joinBytes hi lo) = hi := by
  apply BitVec.eq_of_toNat_eq
  have := lo.isLt
  rw [highByte_toNat, joinBytes_toNat]
  omega

end Sys2Proof

namespace Sys2Proof.Machine

theorem add8_toNat (a b : Byte) : (add8 a b).toNat = (a.toNat + b.toNat) % 256 :=
  BitVec.toNat_add a b

theorem add16_toNat (a b : Addr) : (add16 a b).toNat = (a.toNat + b.toNat) % 65536 :=
  BitVec.toNat_add a b

theorem zext16_toNat (b : Byte) : (zext16 b).toNat = b.toNat := by
  have := b.isLt
  simp only [zext16, BitVec.toNat_setWidth]
  omega

@[simp] theorem add16_add16 (a b c : Addr) : add16 (add16 a b) c = add16 a (b + c) :=
  BitVec.add_assoc a b c

theorem add16_one_ne (a : Addr) : add16 a 1#16 ≠ a := by
  intro h
  have h' := congrArg BitVec.toNat h
  rw [add16_toNat] at h'
  have := a.isLt
  simp at h'
  omega

/-! ### Status bits -/

/-- One bit of a byte after `putBit`. -/
theorem putBit_getLsbD (p : Byte) (i j : Nat) (b : Bool) (hi : i < 8) :
    (putBit p i b).getLsbD j = if j = i then b else p.getLsbD j := by
  unfold putBit
  have h8 : j ≥ 8 → p.getLsbD j = false := fun h => BitVec.getLsbD_of_ge p j h
  by_cases hj : j < 8
  · interval_cases i <;> interval_cases j <;> cases b <;> simp
  · have hp := h8 (by omega)
    rw [if_neg (show ¬ j = i by omega), hp]
    exact BitVec.getLsbD_of_ge _ _ (by omega)

/-- Every bit of the status byte after `UpdateZN(v)`. -/
theorem statusZN_getLsbD (p v : Byte) (j : Nat) :
    (statusZN p v).getLsbD j = if j = 7 then v.getLsbD 7 else if j = 1 then v == 0x00#8 else p.getLsbD j := by
  unfold statusZN
  rw [putBit_getLsbD _ _ _ _ (by omega), putBit_getLsbD _ _ _ _ (by omega)]
  rfl

end Sys2Proof.Machine
end

