-- ==== Sys2Proof/Laws/Access.lean ====
section
/-! SUPPORT. What the memory primitives, the resolver and the operand forms do, once for each. -/

namespace Sys2Proof.Machine

/-- Everything `writeByte` does to what memory reads as. -/
theorem readByte_after_writeByte (m : Memory) (a : Addr) (v : Byte) (b : Addr) :
    readByte (writeByte m a v) b = if b = a then v else readByte m b := by
  unfold readByte writeByte
  rw [Memory.read_write]
  by_cases h : b = a
  · simp [h]
  · have : b.toNat ≠ a.toNat := fun h' => h (BitVec.eq_of_toNat_eq h')
    simp [h, this]

@[simp] theorem readByte_empty (a : Addr) : readByte [] a = 0x00#8 := rfl

/-- Everything `copyBytes` does to what memory reads as, where the bytes do not wrap. -/
theorem readByte_after_copyBytes (bs : List Byte) (base : Addr) (m : Memory) (b : Addr)
    (h : base.toNat + bs.length ≤ 65536) :
    readByte (copyBytes bs base m) b =
      if base.toNat ≤ b.toNat ∧ b.toNat < base.toNat + bs.length
      then bs.getD (b.toNat - base.toNat) 0x00#8 else readByte m b := by
  induction bs generalizing base m with
  | nil =>
    have : ¬ (base.toNat ≤ b.toNat ∧ b.toNat < base.toNat) := by omega
    simp [copyBytes, this]
  | cons c cs ih =>
    simp only [List.length_cons] at h
    unfold copyBytes
    by_cases hend : cs = []
    · subst hend
      simp only [copyBytes, readByte_after_writeByte, List.length_cons, List.length_nil, Nat.zero_add]
      by_cases hb : b = base
      · subst hb; simp
      · have : b.toNat ≠ base.toNat := fun h' => hb (BitVec.eq_of_toNat_eq h')
        rw [if_neg hb, if_neg (by omega)]
    · have hlen : 0 < cs.length := List.length_pos_iff.mpr hend
      have hnext : (add16 base 1#16).toNat = base.toNat + 1 := by
        rw [add16_toNat]; simp; omega
      rw [ih (add16 base 1#16) _ (by omega), hnext, readByte_after_writeByte]
      by_cases hb : b = base
      · subst hb
        rw [if_neg (by omega), if_pos rfl, if_pos (by simp)]
        simp
      · have hne : b.toNat ≠ base.toNat := fun h' => hb (BitVec.eq_of_toNat_eq h')
        rw [if_neg hb]
        by_cases hin : base.toNat + 1 ≤ b.toNat ∧ b.toNat < base.toNat + 1 + cs.length
        · rw [if_pos hin, if_pos (by simp only [List.length_cons]; omega)]
          have : b.toNat - base.toNat = (b.toNat - (base.toNat + 1)) + 1 := by omega
          rw [this, List.getD_cons_succ]
        · rw [if_neg hin, if_neg (by simp only [List.length_cons]; omega)]

/-- The address an operand standing at `operandPC` names is what the resolver answers. -/
theorem operandAddress_operandAt (mode : AddrMode) (s : State) :
    operandAddress (operandAt mode s.pc s.mem) s = resolve mode s.pc s.x s.y s.mem := rfl

/-- The byte an operand standing at `operandPC` names is the one at the address the resolver answers. -/
theorem operandByte_operandAt (mode : AddrMode) (s : State) :
    operandByte (operandAt mode s.pc s.mem) s = readByte s.mem (resolve mode s.pc s.x s.y s.mem) := by
  cases mode <;> rfl

/-- Decoding the bytes that stand at an address gives the instruction fetched there. -/
theorem fetchInstr_of_decode (m : Memory) (pc : Addr) (n : Nat) (i : Instr) (rest : List Byte)
    (h : decode (bytesFrom m pc n) = .ok (i, rest)) : fetchInstr m pc = i := by
  match n with
  | 0 => simp [bytesFrom, decode] at h
  | 1 =>
    simp only [bytesFrom, decode] at h
    split at h
    · cases h
    · rename_i hw
      injection h with h
      injection h with h _
      rw [← h]
      simp only [decodeOpcode, fetchInstr, decodeFields] at hw ⊢
      cases hrow : opcodeRow (readByte m pc) <;> simp_all [OpcodeRow.mode, Mode.width, AddrMode.width]
  | 2 =>
    simp only [bytesFrom, decode] at h
    split at h
    · cases h
    · rename_i hw
      injection h with h
      injection h with h _
      rw [← h]
      simp only [decodeOpcode, fetchInstr, decodeFields] at hw ⊢
      cases hrow : opcodeRow (readByte m pc) <;> simp_all [OpcodeRow.mode, Mode.width, AddrMode.width]
  | k + 3 =>
    simp only [bytesFrom, decode] at h
    split at h
    · cases h
    · injection h with h
      injection h with h _
      rw [← h]
      simp [fetchInstr]

/-- Everything `load` answers when the bytes fit. -/
theorem load_of_fits (bytes : List Byte) (base : Addr) (s : State) (h : base.toNat + bytes.length ≤ 65536) :
    load bytes base s =
      .next { s with mem := writeWord (copyBytes bytes base s.mem) Config.resetVector base } := by
  have hn : ¬ (0x10000 < base.toNat + bytes.length) := by omega
  rw [load, if_neg hn]

/-- What `load` answers when the bytes do not fit. -/
theorem load_of_past_end (bytes : List Byte) (base : Addr) (s : State) (h : 65536 < base.toNat + bytes.length) :
    load bytes base s = .refused .loadPastEnd := by
  have hn : 0x10000 < base.toNat + bytes.length := h
  rw [load, if_pos hn]

end Sys2Proof.Machine
end

