-- ==== Sys2Proof/Laws/Decode.lean ====
section
/-! SUPPORT. What the opcode map and the decoder answer, once for each. -/

namespace Sys2Proof

/-- Each recognized row is selected by its one byte and no other. -/
theorem opcodeRow_eq_brk (op : Byte) : opcodeRow op = .brk ↔ op = 0x00#8 := by
  constructor
  · intro h; unfold opcodeRow at h; split_ifs at h; assumption
  · rintro rfl; rfl

theorem opcodeRow_eq_staZp (op : Byte) : opcodeRow op = .staZp ↔ op = 0x85#8 := by
  constructor
  · intro h; unfold opcodeRow at h; split_ifs at h; assumption
  · rintro rfl; rfl

theorem opcodeRow_eq_staZpX (op : Byte) : opcodeRow op = .staZpX ↔ op = 0x95#8 := by
  constructor
  · intro h; unfold opcodeRow at h; split_ifs at h; assumption
  · rintro rfl; rfl

theorem opcodeRow_eq_ldaZp (op : Byte) : opcodeRow op = .ldaZp ↔ op = 0xA5#8 := by
  constructor
  · intro h; unfold opcodeRow at h; split_ifs at h; assumption
  · rintro rfl; rfl

theorem opcodeRow_eq_ldaImm (op : Byte) : opcodeRow op = .ldaImm ↔ op = 0xA9#8 := by
  constructor
  · intro h; unfold opcodeRow at h; split_ifs at h; assumption
  · rintro rfl; rfl

theorem opcodeRow_eq_tax (op : Byte) : opcodeRow op = .tax ↔ op = 0xAA#8 := by
  constructor
  · intro h; unfold opcodeRow at h; split_ifs at h; assumption
  · rintro rfl; rfl

theorem opcodeRow_eq_ldaAbs (op : Byte) : opcodeRow op = .ldaAbs ↔ op = 0xAD#8 := by
  constructor
  · intro h; unfold opcodeRow at h; split_ifs at h; assumption
  · rintro rfl; rfl

/-- Every byte outside the table selects the fallback row. -/
theorem opcodeRow_of_not_recognized (op : Byte) (h : op ∉ recognizedOpcodes) : opcodeRow op = .unrecognized := by
  simp only [recognizedOpcodes, List.mem_cons, List.not_mem_nil, or_false, not_or] at h
  simp [opcodeRow, h]

@[simp] theorem decodeFields_kind (op b1 b2 : Byte) : (decodeFields op b1 b2).kind = (opcodeRow op).kind := by
  unfold decodeFields; cases opcodeRow op <;> rfl

@[simp] theorem decodeFields_mode (op b1 b2 : Byte) : (decodeFields op b1 b2).mode = (opcodeRow op).mode := by
  unfold decodeFields; cases opcodeRow op <;> rfl

/-- Everything the decoder answers on a list with an opcode byte. -/
theorem decode_cons_ok_iff (op : Byte) (rest after : List Byte) (i : Instr) :
    decode (op :: rest) = .ok (i, after) ↔
      (decodeOpcode op).width ≤ rest.length ∧ i = decodeFields op (rest.getD 0 0x00#8) (rest.getD 1 0x00#8) ∧
      after = rest.drop (decodeOpcode op).width := by
  simp only [decode]
  split
  · rename_i h
    constructor
    · intro h'; cases h'
    · rintro ⟨h1, -⟩; omega
  · rename_i h
    constructor
    · intro h'
      injection h' with h'
      injection h' with h1 h2
      exact ⟨by omega, h1.symm, h2.symm⟩
    · rintro ⟨-, rfl, rfl⟩; rfl

/-- Whether an operand byte has a part in the answer is told by the opcode's width. -/
theorem decodeFields_congr (op b1 b2 c1 c2 : Byte) (h1 : 1 ≤ (decodeOpcode op).width → b1 = c1)
    (h2 : 2 ≤ (decodeOpcode op).width → b2 = c2) : decodeFields op b1 b2 = decodeFields op c1 c2 := by
  simp only [decodeOpcode] at h1 h2
  unfold decodeFields
  cases hrow : opcodeRow op <;> simp_all [OpcodeRow.mode, Mode.width, AddrMode.width]

end Sys2Proof
end

