-- ==== Sys2Proof/Laws/State.lean ====
section
/-! SUPPORT. What each named update of the state does to each field, so that no later proof unfolds a record update. -/

namespace Sys2Proof.Machine

/-! ### `pastOpcode` -/

@[simp] theorem pastOpcode_a (s : State) : (pastOpcode s).a = s.a := rfl
@[simp] theorem pastOpcode_x (s : State) : (pastOpcode s).x = s.x := rfl
@[simp] theorem pastOpcode_y (s : State) : (pastOpcode s).y = s.y := rfl
@[simp] theorem pastOpcode_p (s : State) : (pastOpcode s).p = s.p := rfl
@[simp] theorem pastOpcode_pc (s : State) : (pastOpcode s).pc = add16 s.pc 1#16 := rfl
@[simp] theorem pastOpcode_mem (s : State) : (pastOpcode s).mem = s.mem := rfl
@[simp] theorem pastOpcode_halted (s : State) : (pastOpcode s).halted = s.halted := rfl

/-! ### `advance` -/

@[simp] theorem advance_a (mode : Mode) (s : State) : (advance mode s).a = s.a := rfl
@[simp] theorem advance_x (mode : Mode) (s : State) : (advance mode s).x = s.x := rfl
@[simp] theorem advance_y (mode : Mode) (s : State) : (advance mode s).y = s.y := rfl
@[simp] theorem advance_p (mode : Mode) (s : State) : (advance mode s).p = s.p := rfl
@[simp] theorem advance_pc (mode : Mode) (s : State) : (advance mode s).pc = add16 s.pc (BitVec.ofNat 16 mode.width) := rfl
@[simp] theorem advance_mem (mode : Mode) (s : State) : (advance mode s).mem = s.mem := rfl
@[simp] theorem advance_halted (mode : Mode) (s : State) : (advance mode s).halted = s.halted := rfl

/-! ### `updateZN` -/

@[simp] theorem updateZN_a (v : Byte) (s : State) : (updateZN v s).a = s.a := rfl
@[simp] theorem updateZN_x (v : Byte) (s : State) : (updateZN v s).x = s.x := rfl
@[simp] theorem updateZN_y (v : Byte) (s : State) : (updateZN v s).y = s.y := rfl
@[simp] theorem updateZN_p (v : Byte) (s : State) : (updateZN v s).p = statusZN s.p v := rfl
@[simp] theorem updateZN_pc (v : Byte) (s : State) : (updateZN v s).pc = s.pc := rfl
@[simp] theorem updateZN_mem (v : Byte) (s : State) : (updateZN v s).mem = s.mem := rfl
@[simp] theorem updateZN_halted (v : Byte) (s : State) : (updateZN v s).halted = s.halted := rfl

/-! ### `putAccumulator` -/

@[simp] theorem putAccumulator_a (v : Byte) (s : State) : (putAccumulator v s).a = v := rfl
@[simp] theorem putAccumulator_x (v : Byte) (s : State) : (putAccumulator v s).x = s.x := rfl
@[simp] theorem putAccumulator_y (v : Byte) (s : State) : (putAccumulator v s).y = s.y := rfl
@[simp] theorem putAccumulator_p (v : Byte) (s : State) : (putAccumulator v s).p = statusZN s.p v := rfl
@[simp] theorem putAccumulator_pc (v : Byte) (s : State) : (putAccumulator v s).pc = s.pc := rfl
@[simp] theorem putAccumulator_mem (v : Byte) (s : State) : (putAccumulator v s).mem = s.mem := rfl
@[simp] theorem putAccumulator_halted (v : Byte) (s : State) : (putAccumulator v s).halted = s.halted := rfl

/-! ### `putX` -/

@[simp] theorem putX_a (v : Byte) (s : State) : (putX v s).a = s.a := rfl
@[simp] theorem putX_x (v : Byte) (s : State) : (putX v s).x = v := rfl
@[simp] theorem putX_y (v : Byte) (s : State) : (putX v s).y = s.y := rfl
@[simp] theorem putX_p (v : Byte) (s : State) : (putX v s).p = statusZN s.p v := rfl
@[simp] theorem putX_pc (v : Byte) (s : State) : (putX v s).pc = s.pc := rfl
@[simp] theorem putX_mem (v : Byte) (s : State) : (putX v s).mem = s.mem := rfl
@[simp] theorem putX_halted (v : Byte) (s : State) : (putX v s).halted = s.halted := rfl

/-! ### `storeAt` -/

@[simp] theorem storeAt_a (ea : Addr) (s : State) : (storeAt ea s).a = s.a := rfl
@[simp] theorem storeAt_x (ea : Addr) (s : State) : (storeAt ea s).x = s.x := rfl
@[simp] theorem storeAt_y (ea : Addr) (s : State) : (storeAt ea s).y = s.y := rfl
@[simp] theorem storeAt_p (ea : Addr) (s : State) : (storeAt ea s).p = s.p := rfl
@[simp] theorem storeAt_pc (ea : Addr) (s : State) : (storeAt ea s).pc = s.pc := rfl
@[simp] theorem storeAt_mem (ea : Addr) (s : State) : (storeAt ea s).mem = writeByte s.mem ea s.a := rfl
@[simp] theorem storeAt_halted (ea : Addr) (s : State) : (storeAt ea s).halted = s.halted := rfl

/-! ### `enterHalt` -/

@[simp] theorem enterHalt_a (s : State) : (enterHalt s).a = s.a := rfl
@[simp] theorem enterHalt_x (s : State) : (enterHalt s).x = s.x := rfl
@[simp] theorem enterHalt_y (s : State) : (enterHalt s).y = s.y := rfl
@[simp] theorem enterHalt_p (s : State) : (enterHalt s).p = s.p := rfl
@[simp] theorem enterHalt_pc (s : State) : (enterHalt s).pc = s.pc := rfl
@[simp] theorem enterHalt_mem (s : State) : (enterHalt s).mem = s.mem := rfl
@[simp] theorem enterHalt_halted (s : State) : (enterHalt s).halted = true := rfl

/-! ### `resetCore` -/

@[simp] theorem resetCore_a (s : State) : (resetCore s).a = 0x00#8 := rfl
@[simp] theorem resetCore_x (s : State) : (resetCore s).x = 0x00#8 := rfl
@[simp] theorem resetCore_y (s : State) : (resetCore s).y = s.y := rfl
@[simp] theorem resetCore_p (s : State) : (resetCore s).p = 0x00#8 := rfl
@[simp] theorem resetCore_pc (s : State) : (resetCore s).pc = readWord s.mem Config.resetVector := rfl
@[simp] theorem resetCore_mem (s : State) : (resetCore s).mem = s.mem := rfl
@[simp] theorem resetCore_halted (s : State) : (resetCore s).halted = false := rfl

/-! ### `start` -/

@[simp] theorem start_a (s : State) : (start s).a = s.a := rfl
@[simp] theorem start_x (s : State) : (start s).x = s.x := rfl
@[simp] theorem start_y (s : State) : (start s).y = s.y := rfl
@[simp] theorem start_p (s : State) : (start s).p = s.p := rfl
@[simp] theorem start_pc (s : State) : (start s).pc = s.pc := rfl
@[simp] theorem start_mem (s : State) : (start s).mem = s.mem := rfl
@[simp] theorem start_halted (s : State) : (start s).halted = false := rfl

/-! ### `writeMem` -/

@[simp] theorem writeMem_a (ea : Addr) (v : Byte) (s : State) : (writeMem ea v s).a = s.a := rfl
@[simp] theorem writeMem_x (ea : Addr) (v : Byte) (s : State) : (writeMem ea v s).x = s.x := rfl
@[simp] theorem writeMem_y (ea : Addr) (v : Byte) (s : State) : (writeMem ea v s).y = s.y := rfl
@[simp] theorem writeMem_p (ea : Addr) (v : Byte) (s : State) : (writeMem ea v s).p = s.p := rfl
@[simp] theorem writeMem_pc (ea : Addr) (v : Byte) (s : State) : (writeMem ea v s).pc = s.pc := rfl
@[simp] theorem writeMem_mem (ea : Addr) (v : Byte) (s : State) : (writeMem ea v s).mem = writeByte s.mem ea v := rfl
@[simp] theorem writeMem_halted (ea : Addr) (v : Byte) (s : State) : (writeMem ea v s).halted = s.halted := rfl

end Sys2Proof.Machine
end

