-- ==== Sys2Proof/Laws/Exec.lean ====
section
/-! SUPPORT. One equation for each meaning, in the state it starts from, and what a step is. -/

namespace Sys2Proof.Machine

/-- Everything `executeAs` can do: it answers the next state that the execute phase gives between the two updates of PC. -/
theorem executeAs_next (mode : Mode) (execute : State → State) (s t : State) :
    executeAs mode execute s = .next t ↔ t = advance mode (execute (pastOpcode s)) := by
  simp [executeAs, eq_comm]

theorem execBrk_eq (s : State) :
    execBrk s = .next { s with pc := s.pc + 1#16, halted := true } := by
  simp [execBrk, executeAs, advance, enterHalt, pastOpcode, Mode.width, add16]

theorem execUnrecognized_eq (s : State) :
    execUnrecognized s = .next { s with pc := s.pc + 1#16 } := by
  simp [execUnrecognized, executeAs, advance, pastOpcode, Mode.width, add16]

theorem execTax_eq (s : State) :
    execTax s = .next { s with x := s.a, p := statusZN s.p s.a, pc := s.pc + 1#16 } := by
  simp [execTax, executeAs, advance, pastOpcode, transferAtoX, putX, updateZN, Mode.width, add16]

theorem execLdaImm_eq (imm : Byte) (s : State) :
    execLdaImm imm s = .next { s with a := imm, p := statusZN s.p imm, pc := s.pc + 2#16 } := by
  simp [execLdaImm, executeAs, advance, pastOpcode, loadAccumulatorFrom, putAccumulator, updateZN, operandByte,
    Mode.width, AddrMode.width, add16, BitVec.add_assoc]

theorem execLdaZp_eq (zz : Byte) (s : State) :
    execLdaZp zz s = .next
      { s with
        a := readByte s.mem (zext16 zz)
        p := statusZN s.p (readByte s.mem (zext16 zz))
        pc := s.pc + 2#16 } := by
  simp [execLdaZp, executeAs, advance, pastOpcode, loadAccumulatorFrom, putAccumulator, updateZN, operandByte,
    operandAddress, effectiveAddress, Mode.width, AddrMode.width, add16, BitVec.add_assoc]

theorem execLdaAbs_eq (a16 : Addr) (s : State) :
    execLdaAbs a16 s = .next
      { s with
        a := readByte s.mem a16
        p := statusZN s.p (readByte s.mem a16)
        pc := s.pc + 3#16 } := by
  simp [execLdaAbs, executeAs, advance, pastOpcode, loadAccumulatorFrom, putAccumulator, updateZN, operandByte,
    operandAddress, effectiveAddress, Mode.width, AddrMode.width, add16, BitVec.add_assoc]

theorem execLoadX_eq (m : AddrMode) (s : State) :
    execLoadX m s = .next
      { s with
        x := readByte s.mem (resolve m s.pc s.x s.y s.mem)
        p := statusZN s.p (readByte s.mem (resolve m s.pc s.x s.y s.mem)) } := rfl

theorem execStaZp_eq (zz : Byte) (s : State) :
    execStaZp zz s = .next { s with mem := writeByte s.mem (zext16 zz) s.a, pc := s.pc + 2#16 } := by
  simp [execStaZp, executeAs, advance, pastOpcode, storeAccumulatorTo, storeAt, operandAddress, effectiveAddress,
    Mode.width, AddrMode.width, add16, BitVec.add_assoc]

theorem execStaZpX_eq (zz : Byte) (s : State) :
    execStaZpX zz s = .next
      { s with mem := writeByte s.mem (zext16 (add8 zz s.x)) s.a, pc := s.pc + 2#16 } := by
  simp [execStaZpX, executeAs, advance, pastOpcode, storeAccumulatorTo, storeAt, operandAddress, effectiveAddress,
    Mode.width, AddrMode.width, add16, BitVec.add_assoc]

/-! ### The step -/

theorem step_of_running (s : State) (h : s.Running) : step s = exec (fetchInstr s.mem s.pc) s := by
  have h' : s.halted = false := h
  simp [step, h']

theorem step_of_halted (s : State) (h : s.halted = true) : step s = .fault .coreHalted := by
  simp [step, h]

/-- Everything a step that answers a next state is: the core was running, and the fetched instruction gave that state. -/
theorem step_next_iff (s t : State) :
    step s = .next t ↔ s.Running ∧ exec (fetchInstr s.mem s.pc) s = .next t := by
  unfold step State.Running
  cases s.halted <;> simp

/-- No byte in memory is fetched as LoadX. -/
theorem fetchInstr_ne_loadX (m : Memory) (pc : Addr) (mode : AddrMode) : fetchInstr m pc ≠ .loadX mode := by
  unfold fetchInstr decodeFields
  cases opcodeRow (readByte m pc) <;> simp

end Sys2Proof.Machine
end

