-- ==== Sys2Proof/Laws/PerInstr.lean ====
section
/-! SUPPORT. Statements about every instruction as syntax, one lemma for each constructor. -/

namespace Sys2Proof.Laws.EncodedLength

/-- An instruction's encoding is as long as its mode says: the opcode byte and the operand bytes (30_encoding.md R53). -/
def Statement (i : Instr) : Prop := ∀ bytes, encode i = some bytes → bytes.length = 1 + i.mode.width

theorem brk : Statement .brk := by rintro _ ⟨⟩; rfl
theorem staZp (zz : Byte) : Statement (.staZp zz) := by rintro _ ⟨⟩; rfl
theorem staZpX (zz : Byte) : Statement (.staZpX zz) := by rintro _ ⟨⟩; rfl
theorem ldaZp (zz : Byte) : Statement (.ldaZp zz) := by rintro _ ⟨⟩; rfl
theorem ldaImm (imm : Byte) : Statement (.ldaImm imm) := by rintro _ ⟨⟩; rfl
theorem tax : Statement .tax := by rintro _ ⟨⟩; rfl
theorem ldaAbs (a16 : Addr) : Statement (.ldaAbs a16) := by rintro _ ⟨⟩; rfl
theorem loadX (m : AddrMode) : Statement (.loadX m) := by rintro _ ⟨⟩
theorem unrecognized (op : Byte) : Statement (.unrecognized op) := by rintro _ ⟨⟩; rfl

end Sys2Proof.Laws.EncodedLength
end

