-- ==== Sys2Proof/Laws/Run.lean ====
section
/-! SUPPORT. What runs do from a halted state and over one step. -/

namespace Sys2Proof.Machine

theorem run_of_halted (n : Nat) (s : State) (h : s.halted = true) : run n s = .halted s := by
  cases n <;> simp [run, h]

theorem run_of_step (n : Nat) (s t : State) (h : step s = .next t) : run (n + 1) s = run n t := by
  have hr : s.halted = false := ((step_next_iff s t).mp h).1
  simp [run, hr, h]

/-- A run of the host's machine that answers a next state after one more step goes through that step's state. -/
theorem core_run_succ_iff (k : Nat) (s t : State) :
    Host.Core.run Sys2Proof.core (k + 1) s = .next t ↔
      ∃ u, step s = .next u ∧ Host.Core.run Sys2Proof.core k u = .next t := by
  cases hs : step s with
  | next u =>
    have hs' : Sys2Proof.core.step s = .next u := hs
    simp [Host.Core.run, hs']
  | fault r =>
    have hs' : Sys2Proof.core.step s = .fault r := hs
    simp [Host.Core.run, hs']
  | refused r =>
    have hs' : Sys2Proof.core.step s = .refused r := hs
    simp [Host.Core.run, hs']

end Sys2Proof.Machine
end

