-- ==== Sys2Proof/Tests/Slice0.lean ====
section
/-! SUPPORT. Tests of the model. Expected results are taken from the spec's vectors (95_test_vectors.md, named W and by table) and
from hand calculation with its rules. Then one witness for each statement that has hypotheses. -/

namespace Sys2Proof.Tests

open Sys2Proof.Machine

/-- The state right after reset with some bytes standing at `pc`, about to be fetched. -/
def runningAt (pc : Addr) (bytes : List Byte) : State :=
  { State.reset with pc := pc, mem := copyBytes bytes pc [] }

/-- The state after one step; where there is none, the state itself, halted or not. -/
def after (s : State) : State :=
  match step s with
  | .next t => t
  | .fault _ => s
  | .refused _ => s

/-! ### Well-formedness: the one check, and an ill-formed term it refuses -/

theorem test_wellFormed_refuses_recognized_byte : (Instr.unrecognized 0xA9#8).wellFormed = false := by decide
theorem test_wellFormed_accepts_other_byte : (Instr.unrecognized 0xEA#8).wellFormed = true := by decide

/-! ### Decoding words written out from 30_encoding.md R52 and 41_load_store_transfer.md -/

theorem test_decode_brk : decode [0b00000000#8] = .ok (.brk, []) := rfl
theorem test_decode_staZp : decode [0b10000101#8, 0x10#8] = .ok (.staZp 0x10#8, []) := rfl
theorem test_decode_staZpX : decode [0b10010101#8, 0x03#8] = .ok (.staZpX 0x03#8, []) := rfl
theorem test_decode_ldaZp : decode [0b10100101#8, 0x10#8] = .ok (.ldaZp 0x10#8, []) := rfl
theorem test_decode_ldaImm : decode [0b10101001#8, 0x10#8] = .ok (.ldaImm 0x10#8, []) := rfl
theorem test_decode_tax : decode [0b10101010#8] = .ok (.tax, []) := rfl
theorem test_decode_ldaAbs : decode [0b10101101#8, 0x34#8, 0x12#8] = .ok (.ldaAbs 0x1234#16, []) := rfl
/-- 0xA2 is one byte long whatever follows (30_encoding.md R54, R55; program P8). -/
theorem test_decode_unrecognized : decode [0xA2#8, 0x05#8] = .ok (.unrecognized 0xA2#8, [0x05#8]) := rfl
theorem test_decode_truncated : decode [0xAD#8, 0x34#8] = .error (.truncated 0xAD#8) := rfl
/-- The opcode table's word for LDA #imm, with no bits for its operand byte. -/
theorem test_decodeTableWord_ldaImm : decodeTableWord 8 0xA9 = some (.ldaImm 0x00#8) := by decide
theorem test_decodeTableWord_ldaAbs : decodeTableWord 24 0x1234AD = some (.ldaAbs 0x1234#16) := by decide
/-- LoadX has no encoding (41_load_store_transfer.md R86). -/
theorem test_encode_loadX : encode (.loadX .immediate) = none := rfl

/-! ### Memory primitives (95_test_vectors.md 2.1, W2) -/

theorem test_writeWord_wraps :
    readByte (writeWord [] 0xFFFF#16 0x1234#16) 0xFFFF#16 = 0x34#8 ∧
    readByte (writeWord [] 0xFFFF#16 0x1234#16) 0x0000#16 = 0x12#8 := by decide
/-- `ReadWord` does not wrap within a page: mem[00FF] = 11, mem[0100] = 22, mem[0000] = 33 gives 2211. -/
theorem test_readWord_crosses_page : readWord [(0x0000, 0x33#8), (0x00FF, 0x11#8), (0x0100, 0x22#8)] 0x00FF#16 = 0x2211#16 := by
  decide
/-- Writing zero takes the entry away, so equal memories are equal lists. -/
theorem test_write_zero_removes : writeByte (writeByte [] 0x0010#16 0x80#8) 0x0010#16 0x00#8 = [] := by decide
theorem test_memory_ill_formed : Memory.wf [(0x0011, 0x01#8), (0x0010, 0x01#8)] = false := by decide

/-! ### Resolver vectors (95_test_vectors.md 2.2, W1, W8) -/

theorem test_resolve_zeroPageX : resolve .zeroPageX 0x8001#16 0x02#8 0x00#8 [(0x8001, 0xFF#8)] = 0x0001#16 := by decide
theorem test_resolve_zeroPageY : resolve .zeroPageY 0x8001#16 0x00#8 0x05#8 [(0x8001, 0x20#8)] = 0x0025#16 := by decide
theorem test_resolve_absolute : resolve .absolute 0xFFFF#16 0x00#8 0x00#8 [(0x0000, 0x20#8)] = 0x2000#16 := by decide
theorem test_resolve_absoluteX :
    resolve .absoluteX 0x8001#16 0x01#8 0x00#8 [(0x8001, 0xFF#8), (0x8002, 0x12#8)] = 0x1300#16 := by decide
theorem test_resolve_absoluteY :
    resolve .absoluteY 0x8001#16 0x00#8 0x20#8 [(0x8001, 0xF0#8), (0x8002, 0xFF#8)] = 0x0010#16 := by decide
theorem test_resolve_indirectX :
    resolve .indirectX 0x8001#16 0x02#8 0x00#8
      [(0x0000, 0x12#8), (0x00FF, 0x34#8), (0x0100, 0x99#8), (0x8001, 0xFD#8)] = 0x1234#16 := by decide
theorem test_resolve_indirectY :
    resolve .indirectY 0x8001#16 0x7F#8 0x02#8 [(0x0010, 0xFF#8), (0x0011, 0xFF#8), (0x8001, 0x10#8)] = 0x0001#16 := by decide
theorem test_resolve_indirectY_pointer_wraps :
    resolve .indirectY 0x8001#16 0x00#8 0x00#8 [(0x0000, 0x30#8), (0x0100, 0x99#8), (0x8001, 0xFF#8)] = 0x3000#16 := by decide

/-! ### Status-flag update (95_test_vectors.md 2.3) -/

theorem test_statusZN :
    statusZN 0x00#8 0x00#8 = 0x02#8 ∧ statusZN 0x00#8 0x80#8 = 0x80#8 ∧ statusZN 0x82#8 0x7F#8 = 0x00#8 ∧
    statusZN 0xFF#8 0x01#8 = 0x7D#8 ∧ statusZN 0xFF#8 0x00#8 = 0x7F#8 ∧ statusZN 0x7D#8 0xFF#8 = 0xFD#8 ∧
    statusZN 0x24#8 0x00#8 = 0x26#8 := by decide

/-! ### Instructions, one step each (95_test_vectors.md 2.4 to 2.6) -/

/-- `A9 FF` at 8000, P = 02: A = FF, P = 80, PC = 8002. -/
theorem test_ldaImm :
    (fun t : State => (t.a, t.p, t.pc)) (after { runningAt 0x8000#16 [0xA9#8, 0xFF#8] with p := 0x02#8 }) =
      (0xFF#8, 0x80#8, 0x8002#16) := by decide
/-- `A9` at FFFF with mem[0000] = 42: A = 42, PC = 0001. -/
theorem test_ldaImm_wraps :
    (fun t : State => (t.a, t.pc)) (after (runningAt 0xFFFF#16 [0xA9#8, 0x42#8])) = (0x42#8, 0x0001#16) := by decide
/-- `A5 00` in the zero page of construction memory, P = 80: A = 00, P = 02. -/
theorem test_ldaZp :
    (fun t : State => (t.a, t.p, t.pc)) (after { runningAt 0x8000#16 [0xA5#8, 0x00#8] with p := 0x80#8 }) =
      (0x00#8, 0x02#8, 0x8002#16) := by decide
/-- `AD 00 80` at 8000: A = AD, the opcode itself, P = 80, PC = 8003. -/
theorem test_ldaAbs_own_opcode :
    (fun t : State => (t.a, t.p, t.pc)) (after (runningAt 0x8000#16 [0xAD#8, 0x00#8, 0x80#8])) =
      (0xAD#8, 0x80#8, 0x8003#16) := by decide
/-- `AD` at FFFE: the high address byte is at 0000, and PC ends at 0001. -/
theorem test_ldaAbs_wraps : (after (runningAt 0xFFFE#16 [0xAD#8, 0x00#8, 0x02#8])).pc = 0x0001#16 := by decide
/-- `AA` with A = 01, P = A5: X = 01, P = 25 (reserved bits 0, 2 and 5 kept), A kept. -/
theorem test_tax :
    (fun t : State => (t.a, t.x, t.p, t.pc)) (after { runningAt 0x8000#16 [0xAA#8] with a := 0x01#8, p := 0xA5#8 }) =
      (0x01#8, 0x01#8, 0x25#8, 0x8001#16) := by decide
/-- `85 10` at 8002 with A = 77, X = 05: mem[0010] = 77 and mem[0015] unchanged (90_conflicts.md C1). -/
theorem test_staZp_one_store :
    (fun t : State => (readByte t.mem 0x0010#16, readByte t.mem 0x0015#16, t.pc))
      (after { runningAt 0x8002#16 [0x85#8, 0x10#8] with a := 0x77#8, x := 0x05#8 }) =
      (0x77#8, 0x00#8, 0x8004#16) := by decide
/-- `95 FF` at 8000 with A = 11, X = 02: mem[0001] = 11 and mem[0101] unchanged. -/
theorem test_staZpX_wraps :
    (fun t : State => (readByte t.mem 0x0001#16, readByte t.mem 0x0101#16, t.p))
      (after { runningAt 0x8000#16 [0x95#8, 0xFF#8] with a := 0x11#8, x := 0x02#8 }) =
      (0x11#8, 0x00#8, 0x00#8) := by decide
/-- LoadX(ZeroPageX) with PC = 8001, X = 01, mem[8001] = 10, mem[0011] = 00: X = 00, Z set (the old X indexed). -/
theorem test_loadX_old_x :
    (fun t : State => (t.x, t.p, t.pc)) (loadX .zeroPageX { runningAt 0x8001#16 [0x10#8] with x := 0x01#8 }) =
      (0x00#8, 0x02#8, 0x8001#16) := by decide
/-- LoadX(Immediate) with PC = 8001, mem[8001] = FF: X = FF, N set. -/
theorem test_loadX_immediate :
    (fun t : State => (t.x, t.p)) (loadX .immediate (runningAt 0x8001#16 [0xFF#8])) = (0xFF#8, 0x80#8) := by decide
/-- `00` at FFFF: halted, PC = 0000. -/
theorem test_brk_halts :
    (fun t : State => (t.halted, t.pc)) (after (runningAt 0xFFFF#16 [0x00#8])) = (true, 0x0000#16) := by decide
/-- `A2 05`: PC = 8001, X unchanged: the real 6502's LDX is a one-byte no-op here. -/
theorem test_unrecognized_no_op :
    after (runningAt 0x8000#16 [0xA2#8, 0x05#8]) = { runningAt 0x8000#16 [0xA2#8, 0x05#8] with pc := 0x8001#16 } := by decide
/-- A halted core takes no step (95_test_vectors.md 2.6). -/
theorem test_halted_no_step : step { State.reset with halted := true } = .fault .coreHalted := rfl

/-! ### Reset, load and the host (95_test_vectors.md 2.7, W4) -/

theorem test_resetCore :
    resetCore { State.reset with a := 0x12#8, x := 0x34#8, y := 0x56#8, p := 0xFF#8, mem := [(0xFFFD, 0xC0#8)] } =
      { State.reset with y := 0x56#8, pc := 0xC000#16, mem := [(0xFFFD, 0xC0#8)] } := by decide
/-- Load([AA BB CC DD], FFFA): the vector overwrites CC and DD with FA and FF. -/
theorem test_load_vector_last :
    load [0xAA#8, 0xBB#8, 0xCC#8, 0xDD#8] 0xFFFA#16 State.reset = .next { State.reset with
      mem := [(0xFFFA, 0xAA#8), (0xFFFB, 0xBB#8), (0xFFFC, 0xFA#8), (0xFFFD, 0xFF#8)] } := rfl
theorem test_load_refused : load [0x01#8, 0x02#8, 0x03#8] 0xFFFE#16 State.reset = .refused .loadPastEnd := rfl
theorem test_withFetchWord :
    (fun t : State => (t.a, t.pc)) (after (State.reset.withFetchWord 16 0x10A9)) = (0x10#8, 0x0002#16) := by decide

/-! ### Accesses (20_memory.md R36) and spelling (30_encoding.md R59) -/

theorem test_stepAccesses_staZpX :
    stepAccesses { runningAt 0x8000#16 [0x95#8, 0xFF#8] with x := 0x02#8 } =
      [.read 0x8000#16, .read 0x8001#16, .write 0x0001#16] := by decide
theorem test_spelling :
    spelling (.ldaImm 0x10#8) = some "LDA #$10" ∧ spelling (.ldaAbs 0x0010#16) = some "LDA $0010" ∧
    spelling (.staZpX 0x10#8) = some "STA $10,X" ∧ spelling (.unrecognized 0xEA#8) = some ".byte $EA" ∧
    Operand.spelling (.indirectY 0x40#8) = "($40),Y" := by decide

/-! ### A witness for each statement that has hypotheses -/

/-- `A9 10` about to run at 0x8000. -/
def lda : State := runningAt 0x8000#16 [0xA9#8, 0x10#8]

theorem test_lda_steps : step lda = .next (after lda) := rfl

theorem test_witness_WriteByteSetsExactlyOneCell : (0x0000#16 : Addr) ≠ 0xFFFF#16 := by decide
theorem test_witness_WriteWordIsInverseOfReadWord :
    (0x0001#16 : Addr) ≠ 0xFFFF#16 ∧ (0x0001#16 : Addr) ≠ 0xFFFF#16 + 1#16 := by decide
theorem test_witness_CanonicalMemoriesReadingAlikeAreEqual :
    Memory.wf [(0x0010, 0x80#8), (0xFFFF, 0x01#8)] = true ∧
    ∀ a : Addr, readByte [(0x0010, 0x80#8), (0xFFFF, 0x01#8)] a = readByte [(0x0010, 0x80#8), (0xFFFF, 0x01#8)] a :=
  ⟨rfl, fun _ => rfl⟩
theorem test_witness_EveryStepKeepsMemoryCanonical :
    lda.Inv ∧ step lda = .next (after lda) ∧ ∃ t, exec (.staZp 0xFF#8) lda = .next t := ⟨rfl, rfl, _, rfl⟩
theorem test_witness_HostOperationsKeepMemoryCanonical :
    lda.Inv ∧ (∃ t, load [0xAA#8] 0xFFFF#16 lda = .next t) ∧ (∃ t, loadStandard [0xAA#8] lda = .next t) ∧
    (∃ t, step lda = .next t) ∧ (∃ t, run 2 lda = .halted t) ∧ ∃ t, run 1 lda = .outOfFuel t :=
  ⟨rfl, ⟨_, rfl⟩, ⟨_, rfl⟩, ⟨_, rfl⟩, ⟨_, rfl⟩, ⟨_, rfl⟩⟩
/-- The word at 0xFFFF, and X, Y at their greatest. -/
theorem test_witness_AbsoluteModesWrapAtSixteenBits :
    0xFFFF = (readByte [(0x0000, 0xFF#8), (0xFFFF, 0xFF#8)] (BitVec.ofNat 16 ((0xFFFF#16 : Addr).toNat + 1))).toNat * 256
      + (readByte [(0x0000, 0xFF#8), (0xFFFF, 0xFF#8)] 0xFFFF#16).toNat := by decide
/-- Pointers of 0xFF, for each of the two modes. -/
theorem test_witness_IndirectModesReadPointerInPageZero :
    0xFF = ((readByte [(0x8001, 0xFD#8)] 0x8001#16).toNat + (0x02#8 : Byte).toNat) % 256 ∧
    0xFF = (readByte [(0x8001, 0xFF#8)] 0x8001#16).toNat := by decide
theorem test_witness_OpcodeMapIsTheTable : 0x01#8 ∉ recognizedOpcodes ∧ 0xFF#8 ∉ recognizedOpcodes := by decide
theorem test_witness_OperandWidthFollowsMode : decode [0xAD#8, 0x34#8, 0x12#8, 0x00#8] = .ok (.ldaAbs 0x1234#16, [0x00#8]) := rfl
/-- As many bytes as the width, at its greatest and at its least. -/
theorem test_witness_OpcodeByteAloneTellsLength :
    (decodeOpcode 0xAD#8).width ≤ [0x34#8, 0x12#8].length ∧ (decodeOpcode 0xAA#8).width ≤ ([] : List Byte).length ∧
    0xFF#8 ∉ recognizedOpcodes := by decide
/-- Each side of the equivalence: one byte too few is cut short, exactly enough is not. -/
theorem test_witness_DecoderRejectsOnlyCutShortLists :
    [0x34#8].length < (decodeOpcode 0xAD#8).width ∧ ¬ [0x34#8, 0x12#8].length < (decodeOpcode 0xAD#8).width := by decide
theorem test_witness_DecodeOfEncodeIsTheInstruction :
    (Instr.ldaAbs 0xFFFF#16).WellFormed ∧ encode (.ldaAbs 0xFFFF#16) = some [0xAD#8, 0xFF#8, 0xFF#8] ∧
    (Instr.unrecognized 0xFF#8).WellFormed ∧ encode (.unrecognized 0xFF#8) = some [0xFF#8] := ⟨rfl, rfl, rfl, rfl⟩
theorem test_witness_EncodeOfDecodeIsTheBytes : decode [0x95#8, 0xFF#8, 0xAA#8] = .ok (.staZpX 0xFF#8, [0xAA#8]) := rfl
theorem test_witness_StepRunsTheDecodedInstruction :
    lda.Running ∧ decode (bytesFrom lda.mem lda.pc 3) = .ok (.ldaImm 0x10#8, [0x00#8]) := ⟨rfl, rfl⟩
theorem test_witness_HaltedCoreTakesNoStep : { lda with halted := true }.halted = true := rfl
theorem test_witness_StepRefinesLoopContract : lda.Running := rfl
theorem test_witness_EveryInstructionCompletes : State.reset.Running := rfl
theorem test_witness_StepAdvancesPCByLength :
    ∃ t, step (runningAt 0xFFFE#16 [0xAD#8, 0x00#8, 0x02#8]) = .next t := ⟨_, rfl⟩
theorem test_witness_StepHaltsExactlyOnBreak : ∃ t, step State.reset = .next t ∧ t.halted = true := ⟨_, rfl, rfl⟩
/-- Each side of the equivalence: a run that halts, and the step of it that fetches 0x00. -/
theorem test_witness_RunHaltsExactlyWhenBreakIsFetched :
    lda.Running ∧ (∃ t, run 2 lda = .halted t) ∧
    ∃ u, Host.Core.run Sys2Proof.core 1 lda = .next u ∧ u.Running ∧ readByte u.mem u.pc = 0x00#8 :=
  ⟨rfl, ⟨_, rfl⟩, ⟨_, rfl, rfl, rfl⟩⟩
theorem test_witness_MoreFuelKeepsTheFinalState : ∃ t, run 2 lda = .halted t := ⟨_, rfl⟩
theorem test_witness_UpdateZNWritesOnlyZAndN :
    ∃ t, exec (.staZp 0x10#8) lda = .next t ∧ (Instr.staZp 0x10#8).kind ≠ .loadAccumulator ∧
      (Instr.staZp 0x10#8).kind ≠ .loadX ∧ (Instr.staZp 0x10#8).kind ≠ .transferAtoX := ⟨_, rfl, by decide⟩
theorem test_witness_LoadAccumulatorOverEveryMode :
    0x10#8 = readByte lda.mem (resolve .immediate (lda.pc + 1#16) lda.x lda.y lda.mem) := by decide
theorem test_witness_LdaImmediateResult :
    lda.Running ∧ readByte lda.mem lda.pc = 0xA9#8 ∧
    (runningAt 0xFFFF#16 [0xA9#8, 0x42#8]).Running ∧
    readByte (runningAt 0xFFFF#16 [0xA9#8, 0x42#8]).mem 0xFFFF#16 = 0xA9#8 ∧
    (runningAt 0xFFFF#16 [0xA9#8, 0x42#8]).pc = 0xFFFF#16 := by decide
theorem test_witness_LdaZeroPageResult :
    0x10#8 = readByte (runningAt 0x00FE#16 [0xA5#8, 0x10#8]).mem (BitVec.ofNat 16 (0xFF#8 : Byte).toNat) ∧
    (runningAt 0x00FE#16 [0xA5#8, 0x10#8]).Running ∧
    readByte (runningAt 0x00FE#16 [0xA5#8, 0x10#8]).mem 0x00FE#16 = 0xA5#8 := by decide
theorem test_witness_LdaAbsoluteResult :
    0xAD#8 = readByte (runningAt 0xFFFE#16 [0xAD#8, 0x00#8, 0x02#8]).mem 0xFFFE#16 ∧
    (runningAt 0xFFFE#16 [0xAD#8, 0x00#8, 0x02#8]).Running ∧
    (runningAt 0xFFFE#16 [0xAD#8, 0x00#8, 0x02#8]).pc = 0xFFFE#16 ∧
    (0x0200#16 : Addr).toNat = (readByte (runningAt 0xFFFE#16 [0xAD#8, 0x00#8, 0x02#8]).mem 0x0000#16).toNat * 256
      + (readByte (runningAt 0xFFFE#16 [0xAD#8, 0x00#8, 0x02#8]).mem 0xFFFF#16).toNat := by decide
theorem test_witness_LoadXResult :
    0xFF#8 = readByte (runningAt 0x8001#16 [0xFF#8]).mem
      (resolve .immediate (runningAt 0x8001#16 [0xFF#8]).pc 0x00#8 0x00#8 (runningAt 0x8001#16 [0xFF#8]).mem) := by decide
theorem test_witness_TaxResult :
    (runningAt 0x8000#16 [0xAA#8]).Running ∧ readByte (runningAt 0x8000#16 [0xAA#8]).mem 0x8000#16 = 0xAA#8 := by decide
theorem test_witness_LdaFrame :
    (∃ t, exec (.ldaImm 0x00#8) lda = .next t) ∧ (∃ t, exec (.ldaZp 0xFF#8) lda = .next t) ∧
    ∃ t, exec (.ldaAbs 0xFFFF#16) lda = .next t := ⟨⟨_, rfl⟩, ⟨_, rfl⟩, ⟨_, rfl⟩⟩
theorem test_witness_WritesToXFrame :
    (∃ t, exec .tax lda = .next t) ∧ ∃ t, exec (.loadX .indirectY) lda = .next t := ⟨⟨_, rfl⟩, ⟨_, rfl⟩⟩
theorem test_witness_StaZeroPageResult :
    (runningAt 0xFFFF#16 [0x85#8, 0xFF#8]).Running ∧
    readByte (runningAt 0xFFFF#16 [0x85#8, 0xFF#8]).mem 0xFFFF#16 = 0x85#8 := by decide
theorem test_witness_StaZeroPageXResult :
    (runningAt 0x8000#16 [0x95#8, 0xFF#8]).Running ∧
    readByte (runningAt 0x8000#16 [0x95#8, 0xFF#8]).mem 0x8000#16 = 0x95#8 := by decide
theorem test_witness_StoreFrame :
    (∃ t, exec (.staZp 0xFF#8) lda = .next t) ∧ operandAddress (.zeroPage 0xFF#8) (pastOpcode lda) = 0x00FF#16 ∧
    (∃ t, exec (.staZpX 0xFF#8) { lda with x := 0x02#8 } = .next t) ∧
    operandAddress (.zeroPageX 0xFF#8) (pastOpcode { lda with x := 0x02#8 }) = 0x0001#16 ∧
    (0x0101#16 : Addr) ≠ 0x0001#16 := ⟨⟨_, rfl⟩, rfl, ⟨_, rfl⟩, rfl, by decide⟩
/-- A store over the next opcode, at the top of the zero page, for each of the two stores. -/
theorem test_witness_NextFetchSeesTheStoredByte :
    (runningAt 0x00FD#16 [0x85#8, 0xFF#8]).Running ∧
    fetchInstr (runningAt 0x00FD#16 [0x85#8, 0xFF#8]).mem 0x00FD#16 = .staZp 0xFF#8 ∧
    zext16 0xFF#8 = 0x00FD#16 + 2#16 ∧
    (∃ t, step (runningAt 0x00FD#16 [0x85#8, 0xFF#8]) = .next t) ∧
    fetchInstr (runningAt 0xFFFE#16 [0x95#8, 0x00#8]).mem 0xFFFE#16 = .staZpX 0x00#8 ∧
    zext16 (add8 0x00#8 (runningAt 0xFFFE#16 [0x95#8, 0x00#8]).x) = 0xFFFE#16 + 2#16 ∧
    ∃ t, step (runningAt 0xFFFE#16 [0x95#8, 0x00#8]) = .next t :=
  ⟨rfl, by decide, by decide, ⟨_, rfl⟩, by decide, by decide, ⟨_, rfl⟩⟩
theorem test_witness_BreakHaltsAndNothingElse : State.reset.Running ∧ readByte State.reset.mem State.reset.pc = 0x00#8 := by decide
theorem test_witness_UnrecognizedByteIsNoOp :
    (runningAt 0xFFFF#16 [0xFF#8]).Running ∧
    readByte (runningAt 0xFFFF#16 [0xFF#8]).mem (runningAt 0xFFFF#16 [0xFF#8]).pc ∉ recognizedOpcodes := by decide
theorem test_witness_BreakAndNoOpFrame :
    (∃ t, exec .brk lda = .next t) ∧ ∃ t, exec (.unrecognized 0xEA#8) lda = .next t := ⟨⟨_, rfl⟩, ⟨_, rfl⟩⟩
/-- One instruction outside each kind the matrix's clauses exclude: a store for the registers and flags, LDA for X, memory and
the halt bit, and LoadX for PC. -/
theorem test_witness_InstructionsWriteOnlyWhatTheMatrixSays :
    (∃ t, exec (.staZp 0x10#8) lda = .next t) ∧ (Instr.staZp 0x10#8).kind = .storeAccumulator ∧
    (∃ t, exec (.ldaImm 0x10#8) lda = .next t) ∧ (Instr.ldaImm 0x10#8).kind = .loadAccumulator ∧
    (∃ t, exec (.loadX .absolute) lda = .next t) ∧ (Instr.loadX .absolute).kind = .loadX :=
  ⟨⟨_, rfl⟩, rfl, ⟨_, rfl⟩, rfl, ⟨_, rfl⟩, rfl⟩
/-- A memory that agrees with `lda`'s on the two bytes read and differs elsewhere. -/
theorem test_witness_StepUsesOnlyItsListedAccesses :
    (∃ t, step lda = .next t) ∧
    (∀ a : Addr, Access.read a ∈ stepAccesses lda →
      readByte ((0x0000, 0x55#8) :: lda.mem) a = readByte lda.mem a) ∧
    readByte ((0x0000, 0x55#8) :: lda.mem) 0x0000#16 ≠ readByte lda.mem 0x0000#16 := by
  refine ⟨⟨_, rfl⟩, ?_, by decide⟩
  intro a ha
  have h : stepAccesses lda = [.read 0x8000#16, .read 0x8001#16] := by decide
  rw [h] at ha
  simp only [List.mem_cons, Access.read.injEq, List.not_mem_nil, or_false] at ha
  rcases ha with rfl | rfl <;> decide
/-- The same for a store, with a cell listed as written (0x0010) and one that is not (0x0011). -/
theorem test_witness_StepUsesOnlyItsListedAccesses_store :
    (∃ t, step (runningAt 0x8000#16 [0x85#8, 0x10#8]) = .next t) ∧
    (∀ a : Addr, Access.read a ∈ stepAccesses (runningAt 0x8000#16 [0x85#8, 0x10#8]) →
      readByte ((0x0010, 0x55#8) :: (runningAt 0x8000#16 [0x85#8, 0x10#8]).mem) a =
        readByte (runningAt 0x8000#16 [0x85#8, 0x10#8]).mem a) ∧
    Access.write 0x0010#16 ∈ stepAccesses (runningAt 0x8000#16 [0x85#8, 0x10#8]) ∧
    Access.write 0x0011#16 ∉ stepAccesses (runningAt 0x8000#16 [0x85#8, 0x10#8]) := by
  refine ⟨⟨_, rfl⟩, ?_, by decide, by decide⟩
  intro a ha
  have h : stepAccesses (runningAt 0x8000#16 [0x85#8, 0x10#8]) =
      [.read 0x8000#16, .read 0x8001#16, .write 0x0010#16] := by decide
  rw [h] at ha
  simp only [List.mem_cons, Access.read.injEq, reduceCtorEq, List.not_mem_nil, or_false] at ha
  rcases ha with rfl | rfl <;> decide
theorem test_witness_NoProgramSeesY : ∃ t, Host.Core.run Sys2Proof.core 2 lda = .next t := ⟨_, rfl⟩
theorem test_witness_NoProgramSeesP : ∃ t, Host.Core.run Sys2Proof.core 2 lda = .next t := ⟨_, rfl⟩
/-- Each clause at a boundary: the last byte at 0xFFFF, addresses within and outside the program. -/
theorem test_witness_LoadPlacesBytesThenVector :
    (0xFFFE#16 : Addr).toNat + [0x01#8, 0x02#8].length ≤ 65536 ∧ (0xFFFF#16 : Addr) ≠ 0xFFFC#16 ∧ (0xFFFF#16 : Addr) ≠ 0xFFFD#16 ∧
    (0x0000#16 : Addr) ≠ 0xFFFC#16 ∧ (0x0000#16 : Addr) ≠ 0xFFFD#16 := by decide
theorem test_witness_LoadPastTheEndIsRefused : 65536 < (0xFFFE#16 : Addr).toNat + [0x01#8, 0x02#8, 0x03#8].length := by decide
theorem test_witness_StandardLoadPath :
    [0xA9#8, 0x10#8, 0x00#8].length ≤ 0x8000 ∧ (0x8002#16 : Addr) ≠ 0xFFFC#16 ∧ (0x8002#16 : Addr) ≠ 0xFFFD#16 ∧
    0x8000 ≤ (0x8002#16 : Addr).toNat ∧ (0x8002#16 : Addr).toNat < 0x8000 + [0xA9#8, 0x10#8, 0x00#8].length ∧
    0x8000 < (List.replicate 0x8001 0x00#8).length := by
  refine ⟨by decide, by decide, by decide, by decide, by decide, ?_⟩
  rw [List.length_replicate]
  decide
/-- Program P7: `A9 7F` at 0xFFFE, past the vector and up to the last byte; and `AA` at 0xFFFB, just below the vector. -/
theorem test_witness_BootReachesTheProgram :
    (0xFFFE#16 : Addr).toNat + [0xA9#8, 0x7F#8].length ≤ 0x10000 ∧
    decode [0xA9#8, 0x7F#8] = .ok (.ldaImm 0x7F#8, []) ∧
    (∀ k, k < 1 + (Instr.ldaImm 0x7F#8).mode.width →
      (0xFFFE#16 : Addr).toNat + k ≠ 0xFFFC ∧ (0xFFFE#16 : Addr).toNat + k ≠ 0xFFFD) ∧
    (0xFFFB#16 : Addr).toNat + [0xAA#8, 0x00#8].length ≤ 0x10000 ∧
    decode [0xAA#8, 0x00#8] = .ok (.tax, [0x00#8]) ∧
    ∀ k, k < 1 + Instr.tax.mode.width →
      (0xFFFB#16 : Addr).toNat + k ≠ 0xFFFC ∧ (0xFFFB#16 : Addr).toNat + k ≠ 0xFFFD :=
  ⟨by decide, rfl, by decide, by decide, rfl, by decide⟩
theorem test_witness_HostWritesReadBackUnchanged : Reg.a ≠ Reg.pc ∧ (0x0000#16 : Addr) ≠ 0xFFFF#16 := by decide

end Sys2Proof.Tests
end

section
/-! The memory primitives (20_memory.md R31 to R33): what each reads as after each write, and the three statements about
them. -/

namespace Sys2Proof.Machine

@[simp] theorem readByte_writeByte_same (m : Memory) (a : Addr) (v : Byte) : readByte (writeByte m a v) a = v := by
  rw [readByte_after_writeByte, if_pos rfl]

theorem readByte_writeByte_other (m : Memory) {a b : Addr} (v : Byte) (h : b ≠ a) :
    readByte (writeByte m a v) b = readByte m b := by
  rw [readByte_after_writeByte, if_neg h]

/-- The low byte survives the second write, whose address differs even where it wraps. -/
@[simp] theorem readByte_writeWord_low (m : Memory) (a w : Addr) : readByte (writeWord m a w) a = lowByte w :=
  calc readByte (writeWord m a w) a
    _ = readByte (writeByte m a (lowByte w)) a := readByte_writeByte_other _ _ (add16_one_ne a).symm
    _ = lowByte w := readByte_writeByte_same m a _

@[simp] theorem readByte_writeWord_high (m : Memory) (a w : Addr) :
    readByte (writeWord m a w) (add16 a 1#16) = highByte w :=
  readByte_writeByte_same _ _ _

theorem readByte_writeWord_other (m : Memory) {a b : Addr} (w : Addr) (hlow : b ≠ a) (hhigh : b ≠ add16 a 1#16) :
    readByte (writeWord m a w) b = readByte m b :=
  calc readByte (writeWord m a w) b
    _ = readByte (writeByte m a (lowByte w)) b := readByte_writeByte_other _ _ hhigh
    _ = readByte m b := readByte_writeByte_other m _ hlow

@[simp] theorem readWord_writeWord_same (m : Memory) (a w : Addr) : readWord (writeWord m a w) a = w := by
  rw [readWord, readByte_writeWord_high, readByte_writeWord_low, joinBytes_highByte_lowByte]

theorem readWord_toNat (m : Memory) (a : Addr) :
    (readWord m a).toNat = (readByte m (add16 a 1#16)).toNat * 256 + (readByte m a).toNat :=
  joinBytes_toNat _ _

/-- The adder's next address, in the spec's own arithmetic modulo 65536. -/
theorem add16_one_eq_ofNat (a : Addr) : add16 a 1#16 = BitVec.ofNat 16 ((a.toNat + 1) % 65536) := by
  apply BitVec.eq_of_toNat_eq
  rw [add16_toNat, BitVec.toNat_ofNat]
  exact (Nat.mod_mod _ _).symm

/-- Settles O1: the two cases of a read after a write. -/
theorem writeByteSetsExactlyOneCell : Obligations.WriteByteSetsExactlyOneCell :=
  fun m a v => ⟨readByte_writeByte_same m a v, fun _ h => readByte_writeByte_other m v h⟩

/-- Settles O3: the written cells are the word's two bytes, so reading them joins them again; 0xFFFF needs no case, since an
address and its successor always differ. -/
theorem writeWordIsInverseOfReadWord : Obligations.WriteWordIsInverseOfReadWord := by
  intro m a w
  refine ⟨readWord_writeWord_same m a w, ?low, ?high, fun b hlow hhigh => readByte_writeWord_other m w hlow hhigh⟩
  case low => rw [readByte_writeWord_low, lowByte_toNat]
  case high =>
    change (readByte (writeWord m a w) (add16 a 1#16)).toNat = w.toNat / 256
    rw [readByte_writeWord_high, highByte_toNat]

/-- Settles O2: the word's value with its second address in modular arithmetic; at 0xFFFF that address is 0x0000. -/
theorem readWordIsLittleEndianAndWraps : Obligations.ReadWordIsLittleEndianAndWraps := by
  intro m a
  constructor
  · rw [readWord_toNat, add16_one_eq_ofNat]
  · have hwrap : add16 0xFFFF#16 1#16 = 0x0000#16 := by decide
    rw [readWord_toNat, hwrap]

end Sys2Proof.Machine
end

section
/-! The decoder's lengths (30_encoding.md R52 to R54) and the bytes outside the table (R55; 42_control_and_dispatch.md R105):
the opcode byte alone fixes how many bytes an instruction takes, and the fallback row takes one. -/

namespace Sys2Proof

theorem decodeOpcode_of_not_recognized {op : Byte} (h : op ∉ recognizedOpcodes) :
    decodeOpcode op = { kind := .unrecognized, mode := .implied, width := 0 } := by
  rw [decodeOpcode, opcodeRow_of_not_recognized op h]
  rfl

theorem decodeFields_of_not_recognized {op : Byte} (b1 b2 : Byte) (h : op ∉ recognizedOpcodes) :
    decodeFields op b1 b2 = .unrecognized op := by
  rw [decodeFields, opcodeRow_of_not_recognized op h]

/-- The decoder never answers a list without an opcode byte, so what it answers starts with the opcode. -/
theorem decode_ok_eq_cons {bytes rest : List Byte} {i : Instr} (h : decode bytes = .ok (i, rest)) :
    ∃ op tail, bytes = op :: tail := by
  cases bytes with
  | nil => cases h
  | cons op tail => exact ⟨op, tail, rfl⟩

/-- The width the opcode map gives is the one the decoded instruction's mode asks for. -/
theorem decodeFields_mode_width (op b1 b2 : Byte) : (decodeFields op b1 b2).mode.width = (decodeOpcode op).width := by
  rw [decodeFields_mode, decodeOpcode]

/-- A decoded instruction takes its opcode byte and its operand bytes off the list (30_encoding.md R53). -/
theorem decode_ok_length {bytes rest : List Byte} {i : Instr} (h : decode bytes = .ok (i, rest)) :
    bytes.length = (1 + i.mode.width) + rest.length := by
  obtain ⟨op, tail, rfl⟩ := decode_ok_eq_cons h
  obtain ⟨hwidth, rfl, rfl⟩ := (decode_cons_ok_iff op tail rest i).mp h
  rw [decodeFields_mode_width, List.length_cons, List.length_drop]
  omega

/-- Settles O15: where the operand bytes are there, the answer is the row's fields, whose kind and mode are the map's; for an
unrecognized byte the width is 0, so they are always there. -/
theorem opcodeByteAloneTellsLength : Obligations.OpcodeByteAloneTellsLength := by
  constructor
  · intro op rest hwidth
    exact ⟨_, (decode_cons_ok_iff op rest _ _).mpr ⟨hwidth, rfl, rfl⟩, decodeFields_kind _ _ _, decodeFields_mode _ _ _⟩
  · intro op rest h
    have hrow := decodeOpcode_of_not_recognized h
    rw [decode_cons_ok_iff, decodeFields_of_not_recognized _ _ h, hrow]
    exact ⟨Nat.zero_le _, rfl, rfl⟩

/-- Settles O13: the seven rows by evaluation, the fallback for every other byte. -/
theorem opcodeMapIsTheTable : Obligations.OpcodeMapIsTheTable :=
  ⟨rfl, rfl, rfl, rfl, rfl, rfl, rfl, fun _ h => decodeOpcode_of_not_recognized h⟩

/-- Settles O14: the widths mode by mode, the length from what the decoder leaves. -/
theorem operandWidthFollowsMode : Obligations.OperandWidthFollowsMode :=
  ⟨rfl, by decide, by decide, fun _ _ _ h => decode_ok_length h⟩

end Sys2Proof

namespace Sys2Proof.Machine

theorem fetchInstr_of_not_recognized {m : Memory} {pc : Addr} (h : readByte m pc ∉ recognizedOpcodes) :
    fetchInstr m pc = .unrecognized (readByte m pc) :=
  decodeFields_of_not_recognized _ _ h

theorem exec_unrecognized (op : Byte) (s : State) :
    exec (.unrecognized op) s = .next { s with pc := s.pc + 1#16 } :=
  execUnrecognized_eq s

/-- Settles O43: the no-op's equation, and that a running core fetches it where the byte at PC is outside the table. -/
theorem unrecognizedByteIsNoOp : Obligations.UnrecognizedByteIsNoOp := by
  refine ⟨exec_unrecognized, fun s hrun h => ?_⟩
  rw [step_of_running s hrun, fetchInstr_of_not_recognized h, exec_unrecognized]

end Sys2Proof.Machine
end

section
/-! Which opcodes reach which addressing mode (40_addressing_modes.md R76). -/

namespace Sys2Proof

/-- The modes the opcode map reaches (40_addressing_modes.md R76). -/
def reachedModes : List Mode :=
  [.implied, .addressed .immediate, .addressed .zeroPage, .addressed .zeroPageX, .addressed .absolute]

theorem OpcodeRow.mode_mem_reachedModes (row : OpcodeRow) : row.mode ∈ reachedModes := by
  cases row <;> decide

theorem decodeOpcode_mode_ne {mode : Mode} (h : mode ∉ reachedModes) (op : Byte) : (decodeOpcode op).mode ≠ mode := by
  rintro rfl
  exact h (OpcodeRow.mode_mem_reachedModes _)

theorem OpcodeRow.mode_eq_zeroPage_iff (row : OpcodeRow) :
    row.mode = .addressed .zeroPage ↔ row = .ldaZp ∨ row = .staZp := by
  cases row <;> decide

theorem OpcodeRow.mode_eq_zeroPageX_iff (row : OpcodeRow) : row.mode = .addressed .zeroPageX ↔ row = .staZpX := by
  cases row <;> decide

theorem OpcodeRow.mode_eq_absolute_iff (row : OpcodeRow) : row.mode = .addressed .absolute ↔ row = .ldaAbs := by
  cases row <;> decide

theorem decodeOpcode_mode_eq_zeroPage_iff (op : Byte) :
    (decodeOpcode op).mode = .addressed .zeroPage ↔ op = 0xA5#8 ∨ op = 0x85#8 := by
  rw [decodeOpcode, OpcodeRow.mode_eq_zeroPage_iff, opcodeRow_eq_ldaZp, opcodeRow_eq_staZp]

theorem decodeOpcode_mode_eq_zeroPageX_iff (op : Byte) :
    (decodeOpcode op).mode = .addressed .zeroPageX ↔ op = 0x95#8 := by
  rw [decodeOpcode, OpcodeRow.mode_eq_zeroPageX_iff, opcodeRow_eq_staZpX]

theorem decodeOpcode_mode_eq_absolute_iff (op : Byte) :
    (decodeOpcode op).mode = .addressed .absolute ↔ op = 0xAD#8 := by
  rw [decodeOpcode, OpcodeRow.mode_eq_absolute_iff, opcodeRow_eq_ldaAbs]

end Sys2Proof
end

section
/-! The resolver mode by mode (40_addressing_modes.md R62, R64 to R72): each rule's own pseudocode as an equation, the value of
each kind of address in modular arithmetic, and the statements about them. -/

namespace Sys2Proof.Machine

section
variable (pc : Addr) (x y : Byte) (m : Memory)

@[simp] theorem resolve_immediate : resolve .immediate pc x y m = pc := rfl
@[simp] theorem resolve_zeroPage : resolve .zeroPage pc x y m = zext16 (readByte m pc) := rfl
@[simp] theorem resolve_zeroPageX : resolve .zeroPageX pc x y m = zext16 (add8 (readByte m pc) x) := rfl
@[simp] theorem resolve_zeroPageY : resolve .zeroPageY pc x y m = zext16 (add8 (readByte m pc) y) := rfl
@[simp] theorem resolve_absolute : resolve .absolute pc x y m = readWord m pc := rfl
@[simp] theorem resolve_absoluteX : resolve .absoluteX pc x y m = add16 (readWord m pc) (zext16 x) := rfl
@[simp] theorem resolve_absoluteY : resolve .absoluteY pc x y m = add16 (readWord m pc) (zext16 y) := rfl
@[simp] theorem resolve_indirectX : resolve .indirectX pc x y m = pointerWord m (add8 (readByte m pc) x) := rfl
@[simp] theorem resolve_indirectY :
    resolve .indirectY pc x y m = add16 (pointerWord m (readByte m pc)) (zext16 y) := rfl

end

theorem zext16_add8_toNat (a b : Byte) : (zext16 (add8 a b)).toNat = (a.toNat + b.toNat) % 256 := by
  rw [zext16_toNat, add8_toNat]

theorem add16_zext16_toNat (w : Addr) (b : Byte) : (add16 w (zext16 b)).toNat = (w.toNat + b.toNat) % 65536 := by
  rw [add16_toNat, zext16_toNat]

theorem ofNat_toNat_eq_zext16 (b : Byte) : BitVec.ofNat 16 b.toNat = zext16 b := BitVec.ofNat_toNat 16 b

theorem ofNat_toNat_add_one (a : Addr) : BitVec.ofNat 16 (a.toNat + 1) = add16 a 1#16 := by
  rw [BitVec.ofNat_add, BitVec.ofNat_toNat, BitVec.setWidth_eq, add16]

/-- The two bytes of a pointer stand in the zero page, the high one at 0x0000 where the pointer is 0xFF. -/
theorem pointerWord_toNat (m : Memory) (p : Byte) :
    (pointerWord m p).toNat =
      (readByte m (BitVec.ofNat 16 ((p.toNat + 1) % 256))).toNat * 256 + (readByte m (BitVec.ofNat 16 p.toNat)).toNat := by
  have hhigh : (p.toNat + 1) % 256 = (add8 p 0x01#8).toNat := (add8_toNat p 0x01#8).symm
  rw [pointerWord, joinBytes_toNat, hhigh, ofNat_toNat_eq_zext16, ofNat_toNat_eq_zext16]

/-- Settles O10: an unindexed address is the operand byte itself; an indexed one is a sum of bytes, extended only after it
has wrapped. -/
theorem zeroPageModesWrapInPageZero : Obligations.ZeroPageModesWrapInPageZero := by
  refine ⟨fun pc x y m => ⟨?zeroPage, ?zeroPageX, ?zeroPageY⟩, rfl, rfl, rfl, decodeOpcode_mode_eq_zeroPage_iff,
    decodeOpcode_mode_eq_zeroPageX_iff, decodeOpcode_mode_ne (by decide)⟩
  case zeroPage => rw [resolve_zeroPage, zext16_toNat]
  case zeroPageX => rw [resolve_zeroPageX, zext16_add8_toNat]
  case zeroPageY => rw [resolve_zeroPageY, zext16_add8_toNat]

/-- Settles O11: the base is the word `readWord` gives, whose second address wraps, and the index is added to it at 16 bits. -/
theorem absoluteModesWrapAtSixteenBits : Obligations.AbsoluteModesWrapAtSixteenBits := by
  refine ⟨fun pc x y m w hw => ?_, rfl, rfl, rfl, decodeOpcode_mode_eq_absolute_iff,
    decodeOpcode_mode_ne (by decide), decodeOpcode_mode_ne (by decide)⟩
  have hword : w = (readWord m pc).toNat := by rw [hw, readWord_toNat, ofNat_toNat_add_one]
  rw [resolve_absolute, resolve_absoluteX, resolve_absoluteY, add16_zext16_toNat, add16_zext16_toNat, hword]
  exact ⟨rfl, rfl, rfl⟩

/-- Settles O12: IndirectX indexes the pointer, whose own sum wraps before the word is read; IndirectY indexes the word. -/
theorem indirectModesReadPointerInPageZero : Obligations.IndirectModesReadPointerInPageZero := by
  refine ⟨?indirectX, ?indirectY, rfl, rfl, decodeOpcode_mode_ne (by decide), decodeOpcode_mode_ne (by decide)⟩
  case indirectX =>
    rintro pc x y m p rfl
    rw [resolve_indirectX, pointerWord_toNat, add8_toNat]
  case indirectY =>
    rintro pc x y m p rfl
    rw [resolve_indirectY, add16_zext16_toNat, pointerWord_toNat]

/-- Settles O8: the laws of the two adders and of the zero extension. -/
theorem addressAddersWrap : Obligations.AddressAddersWrap :=
  ⟨add8_toNat, add16_toNat, zext16_toNat⟩

/-- Settles O9: the width and the row of 0xA9 by evaluation, the address by the resolver's equation. -/
theorem immediateModeResolvesToPC : Obligations.ImmediateModeResolvesToPC :=
  ⟨rfl, rfl, resolve_immediate⟩

end Sys2Proof.Machine
end

section
/-! The status byte after `UpdateZN` (41_load_store_transfer.md R80): its bits, the one-byte formula, and which instructions
leave P alone. -/

namespace Sys2Proof.Machine

/-- Every bit of the one-byte formula. -/
theorem statusAfter_getLsbD (p v : Byte) (j : Nat) :
    (statusAfter p v).getLsbD j = if j = 7 then v.getLsbD 7 else if j = 1 then v == 0x00#8 else p.getLsbD j := by
  by_cases hj : j < 8
  · by_cases hv : v = 0x00#8
    · subst hv
      interval_cases j <;> simp [statusAfter]
    · interval_cases j <;> simp [statusAfter, hv]
  · rw [if_neg (by omega), if_neg (by omega), BitVec.getLsbD_of_ge _ _ (by omega), BitVec.getLsbD_of_ge _ _ (by omega)]

/-- Writing the two flags bit by bit gives the one-byte formula. -/
theorem statusZN_eq_statusAfter (p v : Byte) : statusZN p v = statusAfter p v := by
  apply BitVec.eq_of_getLsbD_eq
  intro j _
  rw [statusZN_getLsbD, statusAfter_getLsbD]

theorem updateZN_eq (v : Byte) (s : State) : updateZN v s = { s with p := statusAfter s.p v } := by
  rw [updateZN, statusZN_eq_statusAfter]

theorem statusZN_zero_iff (p v : Byte) : (statusZN p v).getLsbD 1 = true ↔ v = 0x00#8 := by
  rw [statusZN_getLsbD, if_neg (by decide), if_pos rfl, beq_iff_eq]

theorem statusZN_negative (p v : Byte) : (statusZN p v).getLsbD 7 = v.getLsbD 7 := by
  rw [statusZN_getLsbD, if_pos rfl]

theorem statusZN_reserved (p v : Byte) {j : Nat} (hzero : j ≠ 1) (hnegative : j ≠ 7) :
    (statusZN p v).getLsbD j = p.getLsbD j := by
  rw [statusZN_getLsbD, if_neg hnegative, if_neg hzero]

/-- Z asks for the value 0, whose bit 7 is clear. -/
theorem statusZN_not_both (p v : Byte) :
    ¬ ((statusZN p v).getLsbD 1 = true ∧ (statusZN p v).getLsbD 7 = true) := by
  rintro ⟨hzero, hnegative⟩
  rw [statusZN_zero_iff] at hzero
  subst hzero
  rw [statusZN_negative] at hnegative
  exact absurd hnegative (by decide)

/-- The two updates of PC around an execute phase leave the status byte to it. -/
theorem executeAs_next_p {mode : Mode} {execute : State → State} {s t : State}
    (h : executeAs mode execute s = .next t) : t.p = (execute (pastOpcode s)).p := by
  rw [(executeAs_next mode execute s t).mp h, advance_p]

/-- Only the loads and the transfer write P. -/
theorem exec_next_p {i : Instr} {s t : State} (h : exec i s = .next t) (hload : i.kind ≠ .loadAccumulator)
    (hloadX : i.kind ≠ .loadX) (htransfer : i.kind ≠ .transferAtoX) : t.p = s.p := by
  cases i with
  | brk => exact executeAs_next_p h
  | staZp zz => exact executeAs_next_p h
  | staZpX zz => exact executeAs_next_p h
  | unrecognized op => exact executeAs_next_p (mode := .implied) (execute := fun t => t) h
  | ldaZp zz => exact absurd rfl hload
  | ldaImm imm => exact absurd rfl hload
  | ldaAbs a16 => exact absurd rfl hload
  | loadX m => exact absurd rfl hloadX
  | tax => exact absurd rfl htransfer

/-- Settles O28: each bit of the status byte by the law of `statusZN`, the frame of P instruction by instruction. -/
theorem updateZNWritesOnlyZAndN : Obligations.UpdateZNWritesOnlyZAndN :=
  ⟨fun v s => ⟨statusZN_zero_iff s.p v, statusZN_negative s.p v, fun _ => statusZN_reserved s.p v, updateZN_eq v s,
    statusZN_not_both s.p v⟩, fun _ _ _ => exec_next_p⟩

end Sys2Proof.Machine
end

section
/-! What a running core fetches where a recognized opcode byte other than BRK's stands at PC (41_load_store_transfer.md R83 to
R85, R87, R89, R90), and the opcodes that reach each of the two accumulator operations (R82, R88). -/

namespace Sys2Proof

theorem OpcodeRow.kind_eq_loadAccumulator_iff (row : OpcodeRow) :
    row.kind = .loadAccumulator ↔ row = .ldaImm ∨ row = .ldaZp ∨ row = .ldaAbs := by
  cases row <;> decide

theorem OpcodeRow.kind_eq_storeAccumulator_iff (row : OpcodeRow) :
    row.kind = .storeAccumulator ↔ row = .staZp ∨ row = .staZpX := by
  cases row <;> decide

theorem decodeOpcode_kind_eq_loadAccumulator_iff (op : Byte) :
    (decodeOpcode op).kind = .loadAccumulator ↔ op = 0xA9#8 ∨ op = 0xA5#8 ∨ op = 0xAD#8 := by
  rw [decodeOpcode, OpcodeRow.kind_eq_loadAccumulator_iff, opcodeRow_eq_ldaImm, opcodeRow_eq_ldaZp, opcodeRow_eq_ldaAbs]

theorem decodeOpcode_kind_eq_storeAccumulator_iff (op : Byte) :
    (decodeOpcode op).kind = .storeAccumulator ↔ op = 0x85#8 ∨ op = 0x95#8 := by
  rw [decodeOpcode, OpcodeRow.kind_eq_storeAccumulator_iff, opcodeRow_eq_staZp, opcodeRow_eq_staZpX]

end Sys2Proof

namespace Sys2Proof.Machine

section
variable {m : Memory} {pc : Addr}

theorem fetchInstr_ldaImm (h : readByte m pc = 0xA9#8) : fetchInstr m pc = .ldaImm (readByte m (pc + 1#16)) := by
  rw [fetchInstr, h]; rfl

theorem fetchInstr_ldaZp (h : readByte m pc = 0xA5#8) : fetchInstr m pc = .ldaZp (readByte m (pc + 1#16)) := by
  rw [fetchInstr, h]; rfl

theorem fetchInstr_tax (h : readByte m pc = 0xAA#8) : fetchInstr m pc = .tax := by
  rw [fetchInstr, h]; rfl

theorem fetchInstr_staZp (h : readByte m pc = 0x85#8) : fetchInstr m pc = .staZp (readByte m (pc + 1#16)) := by
  rw [fetchInstr, h]; rfl

theorem fetchInstr_staZpX (h : readByte m pc = 0x95#8) : fetchInstr m pc = .staZpX (readByte m (pc + 1#16)) := by
  rw [fetchInstr, h]; rfl

theorem fetchInstr_ldaAbs (h : readByte m pc = 0xAD#8) :
    fetchInstr m pc = .ldaAbs (joinBytes (readByte m (pc + 2#16)) (readByte m (pc + 1#16))) := by
  rw [fetchInstr, h]; rfl

/-- The operand of LDA abs named by its value, the low byte standing first. -/
theorem fetchInstr_ldaAbs_of_toNat {a16 : Addr} (h : readByte m pc = 0xAD#8)
    (haddr : a16.toNat = (readByte m (pc + 2#16)).toNat * 256 + (readByte m (pc + 1#16)).toNat) :
    fetchInstr m pc = .ldaAbs a16 := by
  have hjoin : joinBytes (readByte m (pc + 2#16)) (readByte m (pc + 1#16)) = a16 :=
    BitVec.eq_of_toNat_eq ((joinBytes_toNat _ _).trans haddr.symm)
  rw [fetchInstr_ldaAbs h, hjoin]

end

theorem step_of_fetchInstr {s : State} {i : Instr} (hrun : s.Running) (h : fetchInstr s.mem s.pc = i) :
    step s = exec i s := by
  rw [step_of_running s hrun, h]

end Sys2Proof.Machine
end

section
/-! The loads and the transfer (41_load_store_transfer.md R82 to R85, R87): each meaning as an equation over the one-byte status
formula, and the statements about them. -/

namespace Sys2Proof.Machine

theorem putAccumulator_eq (v : Byte) (s : State) : putAccumulator v s = { s with a := v, p := statusAfter s.p v } :=
  updateZN_eq v _

theorem exec_ldaImm (imm : Byte) (s : State) :
    exec (.ldaImm imm) s = .next { s with a := imm, p := statusAfter s.p imm, pc := s.pc + 2#16 } := by
  rw [← statusZN_eq_statusAfter]
  exact execLdaImm_eq imm s

theorem exec_ldaZp (zz : Byte) (s : State) :
    exec (.ldaZp zz) s = .next
      { s with
        a := readByte s.mem (zext16 zz)
        p := statusAfter s.p (readByte s.mem (zext16 zz))
        pc := s.pc + 2#16 } := by
  rw [← statusZN_eq_statusAfter]
  exact execLdaZp_eq zz s

theorem exec_ldaAbs (a16 : Addr) (s : State) :
    exec (.ldaAbs a16) s = .next
      { s with
        a := readByte s.mem a16
        p := statusAfter s.p (readByte s.mem a16)
        pc := s.pc + 3#16 } := by
  rw [← statusZN_eq_statusAfter]
  exact execLdaAbs_eq a16 s

theorem exec_tax (s : State) :
    exec .tax s = .next { s with x := s.a, p := statusAfter s.p s.a, pc := s.pc + 1#16 } := by
  rw [← statusZN_eq_statusAfter]
  exact execTax_eq s

/-- Settles O29: every mode's load is `putAccumulator` of the byte at the resolved address; the opcodes by the map's rows. -/
theorem loadAccumulatorOverEveryMode : Obligations.LoadAccumulatorOverEveryMode := by
  refine ⟨?_, decodeOpcode_kind_eq_loadAccumulator_iff⟩
  rintro mode s v rfl
  exact putAccumulator_eq _ s

/-- Settles O30: the meaning's equation and the fetch; past 0xFFFF the operand stands at 0x0000. -/
theorem ldaImmediateResult : Obligations.LdaImmediateResult := by
  refine ⟨exec_ldaImm, fun s hrun hop => step_of_fetchInstr hrun (fetchInstr_ldaImm hop), fun s hrun hop hpc => ?_⟩
  have hfetch : fetchInstr s.mem s.pc = .ldaImm (readByte s.mem 0x0000#16) := by
    rw [hpc]
    exact fetchInstr_ldaImm hop
  rw [step_of_fetchInstr hrun hfetch, exec_ldaImm, hpc]
  rfl

/-- Settles O31: the meaning's equation, whose address is the operand byte extended, and the fetch. -/
theorem ldaZeroPageResult : Obligations.LdaZeroPageResult := by
  refine ⟨?_, fun s hrun hop => step_of_fetchInstr hrun (fetchInstr_ldaZp hop)⟩
  rintro zz s v rfl
  rw [ofNat_toNat_eq_zext16, exec_ldaZp]

/-- Settles O32: the meaning's equation and the fetch; past 0xFFFF the high address byte stands at 0x0000. -/
theorem ldaAbsoluteResult : Obligations.LdaAbsoluteResult := by
  refine ⟨?_, fun s a16 hrun hop haddr => step_of_fetchInstr hrun (fetchInstr_ldaAbs_of_toNat hop haddr),
    fun s a16 hrun hop hpc haddr => ?_⟩
  · rintro a16 s v rfl
    exact exec_ldaAbs a16 s
  · have hfetch : fetchInstr s.mem s.pc = .ldaAbs a16 := by
      rw [hpc]
      exact fetchInstr_ldaAbs_of_toNat hop haddr
    refine ⟨_, (step_of_fetchInstr hrun hfetch).trans (exec_ldaAbs a16 s), rfl, ?_⟩
    rw [hpc]
    rfl

/-- Settles O34: the meaning's equation, which does not look at the old X, and the fetch. -/
theorem taxResult : Obligations.TaxResult :=
  ⟨exec_tax, fun _ hrun hop => step_of_fetchInstr hrun (fetchInstr_tax hop)⟩

end Sys2Proof.Machine
end

section
/-! The stores (41_load_store_transfer.md R88 to R91): each writes A at one address, and the statements about them. -/

namespace Sys2Proof.Machine

theorem readByte_storeAt (ea : Addr) (s : State) (b : Addr) :
    readByte (storeAt ea s).mem b = if b = ea then s.a else readByte s.mem b :=
  readByte_after_writeByte s.mem ea s.a b

theorem eq_zext16_iff (a : Addr) (b : Byte) : a = zext16 b ↔ a.toNat = b.toNat := by
  rw [← BitVec.toNat_inj, zext16_toNat]

/-- What a write to a page-zero address leaves, the address told by its value. -/
theorem readByte_writeByte_zext16 (m : Memory) (zz v : Byte) (b : Addr) :
    readByte (writeByte m (zext16 zz) v) b = if b.toNat = zz.toNat then v else readByte m b := by
  simp only [readByte_after_writeByte, eq_zext16_iff]

theorem exec_staZp (zz : Byte) (s : State) :
    exec (.staZp zz) s = .next { s with mem := writeByte s.mem (zext16 zz) s.a, pc := s.pc + 2#16 } :=
  execStaZp_eq zz s

theorem exec_staZpX (zz : Byte) (s : State) :
    exec (.staZpX zz) s = .next { s with mem := writeByte s.mem (zext16 (add8 zz s.x)) s.a, pc := s.pc + 2#16 } :=
  execStaZpX_eq zz s

/-- Both stores are one execute phase between the two updates of PC. -/
theorem exec_store_eq_executeAs {i : Instr} {o : Operand}
    (h : (∃ zz, i = .staZp zz ∧ o = .zeroPage zz) ∨ (∃ zz, i = .staZpX zz ∧ o = .zeroPageX zz)) (s : State) :
    exec i s = executeAs i.mode (storeAccumulatorTo o) s := by
  obtain ⟨zz, rfl, rfl⟩ | ⟨zz, rfl, rfl⟩ := h
  · rfl
  · rfl

/-- Settles O37: every mode's store is `storeAt` the resolved address; the opcodes by the map's rows. -/
theorem storeAccumulatorOverEveryMode : Obligations.StoreAccumulatorOverEveryMode :=
  ⟨fun _ s => ⟨rfl, readByte_storeAt _ s⟩, decodeOpcode_kind_eq_storeAccumulator_iff⟩

/-- Settles O38: the meaning's equation holds one write, at the operand byte extended. -/
theorem staZeroPageResult : Obligations.StaZeroPageResult :=
  ⟨fun zz s => ⟨_, exec_staZp zz s, rfl, rfl, rfl, rfl, rfl, rfl, readByte_writeByte_zext16 s.mem zz s.a⟩,
    fun _ hrun hop => step_of_fetchInstr hrun (fetchInstr_staZp hop)⟩

/-- Settles O39: as the zero-page store, at a sum of bytes that has wrapped before it is extended. -/
theorem staZeroPageXResult : Obligations.StaZeroPageXResult := by
  refine ⟨fun zz s => ⟨_, exec_staZpX zz s, rfl, rfl, rfl, rfl, rfl, rfl, fun b => ?_⟩,
    fun _ hrun hop => step_of_fetchInstr hrun (fetchInstr_staZpX hop)⟩
  rw [← add8_toNat]
  exact readByte_writeByte_zext16 s.mem (add8 zz s.x) s.a b

/-- Settles O40: the store's execute phase is one `storeAt`, and the updates of PC around it touch no other field. -/
theorem storeFrame : Obligations.StoreFrame := by
  intro i o s t hstore hexec
  rw [exec_store_eq_executeAs hstore, executeAs_next, storeAccumulatorTo] at hexec
  subst hexec
  refine ⟨rfl, rfl, rfl, rfl, rfl, ?_⟩
  rintro ea rfl
  exact ⟨readByte_writeByte_same _ _ _, fun b hb => readByte_writeByte_other _ _ hb⟩

end Sys2Proof.Machine
end

section
/-! What one instruction leaves behind, as one function of the instruction and the state: the equations of the meanings
gathered, so that frames and invariants split on the instruction alone. -/

namespace Sys2Proof.Machine

theorem exec_brk (s : State) : exec .brk s = .next { s with pc := s.pc + 1#16, halted := true } :=
  execBrk_eq s

theorem exec_loadX (m : AddrMode) (s : State) :
    exec (.loadX m) s = .next
      { s with
        x := readByte s.mem (resolve m s.pc s.x s.y s.mem)
        p := statusAfter s.p (readByte s.mem (resolve m s.pc s.x s.y s.mem)) } := by
  rw [← statusZN_eq_statusAfter]
  exact execLoadX_eq m s

/-- The state an instruction leaves behind; `exec_eq_nextState` ties it to the model. -/
def nextState (i : Instr) (s : State) : State :=
  match i with
  | .brk => { s with pc := s.pc + 1#16, halted := true }
  | .staZp zz => { s with mem := writeByte s.mem (zext16 zz) s.a, pc := s.pc + 2#16 }
  | .staZpX zz => { s with mem := writeByte s.mem (zext16 (add8 zz s.x)) s.a, pc := s.pc + 2#16 }
  | .ldaZp zz => { s with
      a := readByte s.mem (zext16 zz)
      p := statusAfter s.p (readByte s.mem (zext16 zz))
      pc := s.pc + 2#16 }
  | .ldaImm imm => { s with a := imm, p := statusAfter s.p imm, pc := s.pc + 2#16 }
  | .tax => { s with x := s.a, p := statusAfter s.p s.a, pc := s.pc + 1#16 }
  | .ldaAbs a16 => { s with
      a := readByte s.mem a16
      p := statusAfter s.p (readByte s.mem a16)
      pc := s.pc + 3#16 }
  | .loadX m => { s with
      x := readByte s.mem (resolve m s.pc s.x s.y s.mem)
      p := statusAfter s.p (readByte s.mem (resolve m s.pc s.x s.y s.mem)) }
  | .unrecognized _ => { s with pc := s.pc + 1#16 }

theorem exec_eq_nextState (i : Instr) (s : State) : exec i s = .next (nextState i s) := by
  cases i with
  | brk => exact exec_brk s
  | staZp zz => exact exec_staZp zz s
  | staZpX zz => exact exec_staZpX zz s
  | ldaZp zz => exact exec_ldaZp zz s
  | ldaImm imm => exact exec_ldaImm imm s
  | tax => exact exec_tax s
  | ldaAbs a16 => exact exec_ldaAbs a16 s
  | loadX m => exact exec_loadX m s
  | unrecognized op => exact exec_unrecognized op s

theorem exec_next_iff (i : Instr) (s t : State) : exec i s = .next t ↔ t = nextState i s := by
  rw [exec_eq_nextState, Host.Outcome.next.injEq, eq_comm]

theorem step_eq_nextState {s : State} (hrun : s.Running) : step s = .next (nextState (fetchInstr s.mem s.pc) s) := by
  rw [step_of_running s hrun, exec_eq_nextState]

/-- Everything a step that answers a next state is, the state named. -/
theorem step_next_iff_nextState (s t : State) :
    step s = .next t ↔ s.Running ∧ t = nextState (fetchInstr s.mem s.pc) s := by
  rw [step_next_iff, exec_next_iff]

end Sys2Proof.Machine
end

section
/-! The canonical form of memory (log entry 5; 10_state.md R18): what an instruction, a step, a run and each host operation
keep of it. -/

namespace Sys2Proof.Machine

/-- Only the stores write memory, and a written memory is canonical where the old one was. -/
theorem nextState_inv (i : Instr) {s : State} (h : s.Inv) : (nextState i s).Inv := by
  cases i with
  | staZp | staZpX => exact writeByte_wf _ _ _ h
  | brk | ldaZp | ldaImm | tax | ldaAbs | loadX | unrecognized => exact h

theorem exec_next_inv {i : Instr} {s t : State} (h : s.Inv) (hexec : exec i s = .next t) : t.Inv := by
  rw [exec_next_iff] at hexec
  exact hexec ▸ nextState_inv i h

theorem step_next_inv {s t : State} (h : s.Inv) (hstep : step s = .next t) : t.Inv :=
  exec_next_inv h ((step_next_iff s t).mp hstep).2

/-- Settles O6: only a store writes memory, and `writeByte` keeps the canonical form. -/
theorem everyStepKeepsMemoryCanonical : Obligations.EveryStepKeepsMemoryCanonical :=
  fun _ h => ⟨fun _ => step_next_inv h, fun _ _ => exec_next_inv h⟩

theorem load_next_inv {bytes : List Byte} {base : Addr} {s t : State} (h : s.Inv)
    (hload : load bytes base s = .next t) : t.Inv := by
  by_cases hfits : base.toNat + bytes.length ≤ 65536
  · rw [load_of_fits bytes base s hfits, Host.Outcome.next.injEq] at hload
    subst hload
    exact writeWord_wf _ _ _ (copyBytes_wf _ _ _ h)
  · rw [load_of_past_end bytes base s (by omega)] at hload
    cases hload

theorem writeReg_mem (r : Reg) (v : BitVec r.width) (s : State) : (writeReg r v s).mem = s.mem := by
  cases r <;> rfl

theorem writeReg_inv (r : Reg) (v : BitVec r.width) {s : State} (h : s.Inv) : (writeReg r v s).Inv := by
  rw [State.Inv, writeReg_mem]
  exact h

theorem run_zero_of_running {s : State} (h : s.Running) : run 0 s = .outOfFuel s := by
  have hrun : s.halted = false := h
  simp [run, hrun]

/-- A running core's run with fuel left is one step and the rest of the run. -/
theorem run_succ_of_running (n : Nat) {s : State} (h : s.Running) :
    run (n + 1) s = run n (nextState (fetchInstr s.mem s.pc) s) :=
  run_of_step n s _ (step_eq_nextState h)

/-- The state a run ends in, halted or out of fuel, is canonical where the first was. -/
theorem run_inv (n : Nat) {s t : State} (h : s.Inv) (hrun : run n s = .halted t ∨ run n s = .outOfFuel t) : t.Inv := by
  induction n generalizing s with
  | zero =>
    by_cases hs : s.halted = true
    · rw [run_of_halted 0 s hs] at hrun
      obtain ⟨⟨⟩⟩ | ⟨⟨⟩⟩ := hrun
      exact h
    · rw [run_zero_of_running (by simpa using hs)] at hrun
      obtain ⟨⟨⟩⟩ | ⟨⟨⟩⟩ := hrun
      exact h
  | succ n ih =>
    by_cases hs : s.halted = true
    · rw [run_of_halted (n + 1) s hs] at hrun
      obtain ⟨⟨⟩⟩ | ⟨⟨⟩⟩ := hrun
      exact h
    · rw [run_succ_of_running n (by simpa using hs)] at hrun
      exact ih (nextState_inv _ h) hrun

/-- Settles O7: each operation leaves memory as it is, or writes it by `writeByte`, or starts it empty; a run by its steps. -/
theorem hostOperationsKeepMemoryCanonical : Obligations.HostOperationsKeepMemoryCanonical :=
  ⟨fun _ => rfl, fun _ h => ⟨h, h, fun a v => writeByte_wf _ a v h, fun r v => writeReg_inv r v h,
    fun _ _ _ => load_next_inv h, fun _ _ => load_next_inv h, fun _ => step_next_inv h, fun n _ => run_inv n h⟩⟩

/-- Settles O5: nothing is loaded at reset, so no cell is listed. -/
theorem resetStateMeetsInvariant : Obligations.ResetStateMeetsInvariant := reset_mem_wf

/-- An address past 16 bits reads as an unlisted cell, so agreement at every address is agreement everywhere. -/
theorem Memory.ext_of_readByte {m n : Memory} (hm : Memory.wf m = true) (hn : Memory.wf n = true)
    (h : ∀ a : Addr, readByte m a = readByte n a) : m = n := by
  refine Memory.ext_of_wf m n hm hn fun a => ?_
  by_cases ha : a < 65536
  · have hread := h (BitVec.ofNat 16 a)
    rwa [readByte, readByte, BitVec.toNat_ofNat, Nat.mod_eq_of_lt ha] at hread
  · rw [Memory.read_past_end m hm a (by omega), Memory.read_past_end n hn a (by omega)]

/-- Settles O4: extensionality of the canonical form. -/
theorem canonicalMemoriesReadingAlikeAreEqual : Obligations.CanonicalMemoriesReadingAlikeAreEqual :=
  fun _ _ => Memory.ext_of_readByte

end Sys2Proof.Machine
end

section
/-! The round trip of decoder and encoder (30_encoding.md sections 1 and 2), what the decoder over a list rejects, and LoadX,
which has no encoding (41_load_store_transfer.md R86). -/

namespace Sys2Proof

theorem opcodeRow_eq_unrecognized_iff (op : Byte) : opcodeRow op = .unrecognized ↔ op ∉ recognizedOpcodes := by
  refine ⟨fun hrow hmem => ?_, opcodeRow_of_not_recognized op⟩
  have hne : ∀ b ∈ recognizedOpcodes, opcodeRow b ≠ .unrecognized := by decide
  exact hne op hmem hrow

theorem Instr.wellFormed_unrecognized_iff (op : Byte) : (Instr.unrecognized op).WellFormed ↔ op ∉ recognizedOpcodes := by
  simp [Instr.WellFormed, Instr.wellFormed]

theorem decodeFields_wellFormed (op b1 b2 : Byte) : (decodeFields op b1 b2).WellFormed := by
  unfold decodeFields
  cases hrow : opcodeRow op with
  | unrecognized => exact (Instr.wellFormed_unrecognized_iff op).mpr ((opcodeRow_eq_unrecognized_iff op).mp hrow)
  | brk | staZp | staZpX | ldaZp | ldaImm | tax | ldaAbs => rfl

/-- What a byte and the two after it decode to is encoded by that byte and as many of the two as its width takes in. -/
theorem encode_decodeFields (op b1 b2 : Byte) :
    encode (decodeFields op b1 b2) = some (op :: [b1, b2].take (decodeOpcode op).width) := by
  cases hrow : opcodeRow op with
  | brk => obtain rfl := (opcodeRow_eq_brk op).mp hrow; rfl
  | staZp => obtain rfl := (opcodeRow_eq_staZp op).mp hrow; rfl
  | staZpX => obtain rfl := (opcodeRow_eq_staZpX op).mp hrow; rfl
  | ldaZp => obtain rfl := (opcodeRow_eq_ldaZp op).mp hrow; rfl
  | ldaImm => obtain rfl := (opcodeRow_eq_ldaImm op).mp hrow; rfl
  | tax => obtain rfl := (opcodeRow_eq_tax op).mp hrow; rfl
  | ldaAbs =>
    obtain rfl := (opcodeRow_eq_ldaAbs op).mp hrow
    change some [0xAD#8, lowByte (joinBytes b2 b1), highByte (joinBytes b2 b1)] = some [0xAD#8, b1, b2]
    rw [lowByte_joinBytes, highByte_joinBytes]
  | unrecognized =>
    have hop := (opcodeRow_eq_unrecognized_iff op).mp hrow
    rw [decodeFields_of_not_recognized b1 b2 hop, decodeOpcode_of_not_recognized hop]
    rfl

theorem decodeOpcode_width_le_two (op : Byte) : (decodeOpcode op).width ≤ 2 := by
  have hrow : ∀ row : OpcodeRow, row.mode.width ≤ 2 := by intro row; cases row <;> decide
  exact hrow (opcodeRow op)

/-- Up to two bytes of a list that has them are the ones `getD` finds. -/
theorem take_pair_getD {n : Nat} {bytes : List Byte} (hn : n ≤ 2) (hlen : n ≤ bytes.length) (d : Byte) :
    [bytes.getD 0 d, bytes.getD 1 d].take n = bytes.take n := by
  match n, bytes, hn, hlen with
  | 0, _, _, _ => rfl
  | 1, _ :: _, _, _ => rfl
  | 2, _ :: _ :: _, _, _ => rfl

/-- Settles O18: a decoded row's encoding is the opcode byte and the operand bytes taken, and the decoder leaves the others. -/
theorem encodeOfDecodeIsTheBytes : Obligations.EncodeOfDecodeIsTheBytes := by
  intro bytes i rest h
  obtain ⟨op, tail, rfl⟩ := decode_ok_eq_cons h
  obtain ⟨hwidth, rfl, rfl⟩ := (decode_cons_ok_iff op tail rest i).mp h
  refine ⟨decodeFields_wellFormed _ _ _, _, encode_decodeFields _ _ _, ?_⟩
  rw [take_pair_getD (decodeOpcode_width_le_two op) hwidth, List.cons_append, List.take_append_drop]

/-- Settles O17: each recognized byte selects its row again, with its operand bytes at its width; a well-formed unrecognized
byte selects the fallback. -/
theorem decodeOfEncodeIsTheInstruction : Obligations.DecodeOfEncodeIsTheInstruction := by
  intro i bytes rest hwf hencode
  cases i with
  | loadX m => cases hencode
  | brk | tax =>
    cases hencode
    exact (decode_cons_ok_iff _ rest rest _).mpr ⟨Nat.zero_le _, rfl, rfl⟩
  | staZp b | staZpX b | ldaZp b | ldaImm b =>
    cases hencode
    exact (decode_cons_ok_iff _ (b :: rest) rest _).mpr ⟨Nat.le_add_left 1 _, rfl, rfl⟩
  | ldaAbs a16 =>
    cases hencode
    refine (decode_cons_ok_iff _ (lowByte a16 :: highByte a16 :: rest) rest _).mpr ⟨Nat.le_add_left 2 _, ?_, rfl⟩
    exact congrArg Instr.ldaAbs (joinBytes_highByte_lowByte a16).symm
  | unrecognized op =>
    cases hencode
    exact opcodeByteAloneTellsLength.2 op rest ((Instr.wellFormed_unrecognized_iff op).mp hwf)

theorem OpcodeRow.kind_ne_loadX (row : OpcodeRow) : row.kind ≠ .loadX := by
  cases row <;> decide

theorem decodeFields_ne_loadX (op b1 b2 : Byte) (m : AddrMode) : decodeFields op b1 b2 ≠ .loadX m := by
  intro h
  apply OpcodeRow.kind_ne_loadX (opcodeRow op)
  rw [← decodeFields_kind op b1 b2, h]
  rfl

theorem encode_eq_none_iff (i : Instr) : encode i = none ↔ ∃ m, i = .loadX m := by
  cases i <;> simp [encode]

/-- Settles O19: no row of the opcode map has the kind LoadX, which what the decoder answers takes from its row. -/
theorem noByteDecodesToLoadX : Obligations.NoByteDecodesToLoadX := by
  refine ⟨fun op => OpcodeRow.kind_ne_loadX (opcodeRow op), fun bytes rest m h => ?_, encode_eq_none_iff⟩
  obtain ⟨op, tail, rfl⟩ := decode_ok_eq_cons h
  obtain ⟨-, hfields, -⟩ := (decode_cons_ok_iff op tail rest _).mp h
  exact decodeFields_ne_loadX _ _ _ m hfields.symm

/-- Settles O16: each list by evaluation. -/
theorem writtenOutWordsDecode : Obligations.WrittenOutWordsDecode :=
  ⟨rfl, rfl, rfl, rfl, rfl, rfl, rfl, rfl⟩

theorem decode_cons_error_iff (op : Byte) (rest : List Byte) (e : DecodeError) :
    decode (op :: rest) = .error e ↔ e = .truncated op ∧ rest.length < (decodeOpcode op).width := by
  by_cases hshort : rest.length < (decodeOpcode op).width
  · simp [decode, hshort, eq_comm]
  · simp [decode, hshort]

/-- Settles O58: the empty list by evaluation, any other by whether its operand bytes are there. -/
theorem decoderRejectsOnlyCutShortLists : Obligations.DecoderRejectsOnlyCutShortLists :=
  ⟨rfl, decode_cons_error_iff⟩

end Sys2Proof
end

section
/-! The step (42_control_and_dispatch.md R100 to R107): it is the loop contract's pseudocode, from which come where it leaves
PC and whether it halts. -/

namespace Sys2Proof.Machine

/-- Settles O20: what is decoded from the bytes at PC is what is fetched there. -/
theorem stepRunsTheDecodedInstruction : Obligations.StepRunsTheDecodedInstruction :=
  fun s n i rest hrun h => step_of_fetchInstr hrun (fetchInstr_of_decode s.mem s.pc n i rest h)

/-- Settles O21: a halted core's step is the fault, which is no next state. -/
theorem haltedCoreTakesNoStep : Obligations.HaltedCoreTakesNoStep := by
  intro s h
  refine ⟨step_of_halted s h, fun t hstep => ?_⟩
  rw [step_of_halted s h] at hstep
  cases hstep

/-- Settles O23: each instruction has a state it leaves behind, and a running core's step is an instruction. -/
theorem everyInstructionCompletes : Obligations.EveryInstructionCompletes :=
  ⟨fun i s => ⟨_, exec_eq_nextState i s⟩, fun _ hrun => ⟨_, step_eq_nextState hrun⟩⟩

/-- A load from the operand standing at PC is the load that resolves its mode there. -/
theorem loadAccumulatorFrom_operandAt (mode : AddrMode) (s : State) :
    loadAccumulatorFrom (operandAt mode s.pc s.mem) s = loadAccumulator mode s := by
  rw [loadAccumulatorFrom, operandByte_operandAt, loadAccumulator]

/-- A store to the operand standing at PC is the store that resolves its mode there. -/
theorem storeAccumulatorTo_operandAt (mode : AddrMode) (s : State) :
    storeAccumulatorTo (operandAt mode s.pc s.mem) s = storeAccumulator mode s := by
  rw [storeAccumulatorTo, operandAddress_operandAt, storeAccumulator]

/-- The two operand bytes past the opcode are the word at `operandPC`. -/
theorem readWord_past_opcode (m : Memory) (pc : Addr) :
    readWord m (add16 pc 1#16) = joinBytes (readByte m (add16 pc 2#16)) (readByte m (add16 pc 1#16)) := by
  rw [readWord, add16_add16]
  rfl

/-- Within the frame of a step, a load from the operand bytes past the opcode resolves its mode there. -/
theorem executeAs_loadAccumulatorFrom (mode : AddrMode) (s : State) :
    executeAs (.addressed mode) (loadAccumulatorFrom (operandAt mode (add16 s.pc 1#16) s.mem)) s =
      executeAs (.addressed mode) (loadAccumulator mode) s := by
  rw [executeAs, executeAs, ← loadAccumulatorFrom_operandAt, pastOpcode_pc, pastOpcode_mem]

/-- Within the frame of a step, a store to the operand past the opcode resolves its mode there. -/
theorem executeAs_storeAccumulatorTo (mode : AddrMode) (s : State) :
    executeAs (.addressed mode) (storeAccumulatorTo (operandAt mode (add16 s.pc 1#16) s.mem)) s =
      executeAs (.addressed mode) (storeAccumulator mode) s := by
  rw [executeAs, executeAs, ← storeAccumulatorTo_operandAt, pastOpcode_pc, pastOpcode_mem]

/-- The fetched instruction's meaning is the execute phase of its opcode's row, the operand bytes read by Resolve. -/
theorem exec_fetchInstr_eq_executeAs (s : State) :
    exec (fetchInstr s.mem s.pc) s =
      executeAs (opcodeRow (readByte s.mem s.pc)).mode
        (executeKind (opcodeRow (readByte s.mem s.pc)).kind (opcodeRow (readByte s.mem s.pc)).mode) s := by
  rw [fetchInstr, decodeFields, ← readWord_past_opcode]
  cases opcodeRow (readByte s.mem s.pc) with
  | brk | tax | unrecognized => rfl
  | ldaZp => exact executeAs_loadAccumulatorFrom .zeroPage s
  | ldaImm => exact executeAs_loadAccumulatorFrom .immediate s
  | ldaAbs => exact executeAs_loadAccumulatorFrom .absolute s
  | staZp => exact executeAs_storeAccumulatorTo .zeroPage s
  | staZpX => exact executeAs_storeAccumulatorTo .zeroPageX s

/-- Settles O22: the loop contract is the same execute phase between the same two updates of PC. -/
theorem stepRefinesLoopContract : Obligations.StepRefinesLoopContract := by
  intro s hrun
  rw [step_of_running s hrun, exec_fetchInstr_eq_executeAs]
  rfl

theorem step_next_eq_sequencerStep {s t : State} (h : step s = .next t) : t = sequencerStep s := by
  have hrun : s.Running := ((step_next_iff s t).mp h).1
  rw [stepRefinesLoopContract s hrun, Host.Outcome.next.injEq] at h
  exact h.symm

/-- No execute phase moves PC (10_state.md R16). -/
@[simp] theorem executeKind_pc (kind : Kind) (mode : Mode) (s : State) : (executeKind kind mode s).pc = s.pc := by
  cases kind <;> cases mode <;> rfl

/-- Only the execute phase of BRK touches the halt bit. -/
theorem executeKind_halted (kind : Kind) (mode : Mode) (s : State) :
    (executeKind kind mode s).halted = (kind == .halt || s.halted) := by
  cases kind <;> cases mode <;> rfl

theorem sequencerStep_pc (s : State) :
    (sequencerStep s).pc = add16 (add16 s.pc 1#16) (BitVec.ofNat 16 (decodeOpcode (readByte s.mem s.pc)).width) := by
  simp only [sequencerStep, executeKind_pc, pastOpcode_pc]

theorem sequencerStep_halted (s : State) :
    (sequencerStep s).halted = ((decodeOpcode (readByte s.mem s.pc)).kind == .halt || s.halted) := by
  simp only [sequencerStep, executeKind_halted, pastOpcode_halted]

theorem decodeOpcode_kind_eq_halt_iff (op : Byte) : (decodeOpcode op).kind = .halt ↔ op = 0x00#8 := by
  have hrow : ∀ row : OpcodeRow, row.kind = .halt ↔ row = .brk := by intro row; cases row <;> decide
  rw [decodeOpcode, hrow, opcodeRow_eq_brk]

/-- Settles O24: the loop contract's two updates of PC, the only ones, taken modulo 65536. -/
theorem stepAdvancesPCByLength : Obligations.StepAdvancesPCByLength := by
  intro s t h
  rw [step_next_eq_sequencerStep h, sequencerStep_pc, add16_toNat, add16_toNat, BitVec.toNat_ofNat]
  simp

theorem step_next_halted_iff {s t : State} (h : step s = .next t) : t.halted = true ↔ readByte s.mem s.pc = 0x00#8 := by
  have hrun : s.halted = false := ((step_next_iff s t).mp h).1
  rw [step_next_eq_sequencerStep h, sequencerStep_halted, hrun, Bool.or_false, beq_iff_eq, decodeOpcode_kind_eq_halt_iff]

/-- Settles O25: only the execute phase of BRK's row sets the halt bit, clear before every step. -/
theorem stepHaltsExactlyOnBreak : Obligations.StepHaltsExactlyOnBreak :=
  fun _ _ => step_next_halted_iff

theorem fetchInstr_brk {m : Memory} {pc : Addr} (h : readByte m pc = 0x00#8) : fetchInstr m pc = .brk := by
  rw [fetchInstr, h]; rfl

/-- Settles O42: BRK's equation and the fetch. -/
theorem breakHaltsAndNothingElse : Obligations.BreakHaltsAndNothingElse :=
  ⟨exec_brk, fun _ hrun hop => step_of_fetchInstr hrun (fetchInstr_brk hop)⟩

/-- The instruction at an address whose opcode byte has just been written: the bytes after it are the old ones. -/
theorem fetchInstr_writeByte_opcode (m : Memory) (pc : Addr) (v : Byte) :
    fetchInstr (writeByte m pc v) pc =
      decodeFields v (readByte m (add16 pc 1#16)) (readByte m (add16 pc 2#16)) := by
  have hsecond : add16 pc 2#16 ≠ pc := by simp [add16]
  rw [fetchInstr, readByte_writeByte_same, readByte_writeByte_other m v (add16_one_ne pc),
    readByte_writeByte_other m v hsecond]

/-- Either store, its address the next PC, leaves A standing there as the next opcode byte. -/
theorem nextState_store_over_next {i : Instr} {s : State} {zz : Byte}
    (h : i = .staZp zz ∧ zext16 zz = s.pc + 2#16 ∨ i = .staZpX zz ∧ zext16 (add8 zz s.x) = s.pc + 2#16) :
    nextState i s = { s with mem := writeByte s.mem (s.pc + 2#16) s.a, pc := s.pc + 2#16 } := by
  obtain ⟨rfl, haddr⟩ | ⟨rfl, haddr⟩ := h
  · simp only [nextState, haddr]
  · simp only [nextState, haddr]

/-- Settles O41: the stored byte stands at the next PC and the step after reads its opcode there. -/
theorem nextFetchSeesTheStoredByte : Obligations.NextFetchSeesTheStoredByte := by
  intro s t zz hrun hstore hstep
  obtain ⟨-, rfl⟩ := (step_next_iff_nextState s t).mp hstep
  rw [nextState_store_over_next hstore]
  refine ⟨rfl, ?_⟩
  have hfetch := fetchInstr_writeByte_opcode s.mem (s.pc + 2#16) s.a
  simp only [add16, BitVec.add_assoc] at hfetch
  exact step_of_fetchInstr hrun hfetch

end Sys2Proof.Machine
end

section
/-! Runs (42_control_and_dispatch.md R107, R108): a run ends where a step of it fetches 0x00, and stays ended. -/

namespace Sys2Proof.Machine

theorem run_one_of_break {s : State} (hrun : s.Running) (hop : readByte s.mem s.pc = 0x00#8) :
    ∃ t, run 1 s = .halted t := by
  have hhalt := (step_next_halted_iff (step_eq_nextState hrun)).mpr hop
  exact ⟨_, (run_succ_of_running 0 hrun).trans (run_of_halted 0 _ hhalt)⟩

/-- A running core's run that halts has a step that fetches 0x00. -/
theorem break_fetched_of_run_halted (n : Nat) {s t : State} (hrun : s.Running) (h : run n s = .halted t) :
    ∃ k u, Host.Core.run Sys2Proof.core k s = .next u ∧ u.Running ∧ readByte u.mem u.pc = 0x00#8 := by
  induction n generalizing s with
  | zero =>
    rw [run_zero_of_running hrun] at h
    cases h
  | succ n ih =>
    rw [run_succ_of_running n hrun] at h
    have hstep := step_eq_nextState hrun
    by_cases hop : readByte s.mem s.pc = 0x00#8
    · exact ⟨0, s, rfl, hrun, hop⟩
    · have hnext : (nextState (fetchInstr s.mem s.pc) s).Running := by
        rw [State.Running, Bool.eq_false_iff]
        exact fun hhalt => hop ((step_next_halted_iff hstep).mp hhalt)
      obtain ⟨k, u, hk, hu⟩ := ih hnext h
      exact ⟨k + 1, u, (core_run_succ_iff k s u).mpr ⟨_, hstep, hk⟩, hu⟩

/-- A run with a step that fetches 0x00 halts, with one unit of fuel more than the steps before it. -/
theorem run_halted_of_break_fetched (k : Nat) {s u : State} (hk : Host.Core.run Sys2Proof.core k s = .next u)
    (hrun : u.Running) (hop : readByte u.mem u.pc = 0x00#8) : ∃ t, run (k + 1) s = .halted t := by
  induction k generalizing s with
  | zero =>
    obtain rfl := Host.Outcome.next.inj hk
    exact run_one_of_break hrun hop
  | succ k ih =>
    obtain ⟨w, hstep, hw⟩ := (core_run_succ_iff k s u).mp hk
    rw [run_of_step (k + 1) s w hstep]
    exact ih hw

/-- Settles O26: each direction by induction, on the fuel and on the steps before the fetch of 0x00. -/
theorem runHaltsExactlyWhenBreakIsFetched : Obligations.RunHaltsExactlyWhenBreakIsFetched :=
  fun _ hrun => ⟨fun ⟨n, _, h⟩ => break_fetched_of_run_halted n hrun h,
    fun ⟨k, _, hk, hu, hop⟩ => ⟨k + 1, run_halted_of_break_fetched k hk hu hop⟩⟩

/-- Settles O27: by induction on the fuel; a halted core's run is itself whatever the fuel, a running core's goes on as its
next state's. -/
theorem moreFuelKeepsTheFinalState : Obligations.MoreFuelKeepsTheFinalState := by
  intro n k s t h
  induction n generalizing s with
  | zero =>
    by_cases hs : s.halted = true
    · rw [run_of_halted 0 s hs] at h
      cases h
      exact ⟨hs, run_of_halted _ _ hs⟩
    · rw [run_zero_of_running (by simpa using hs)] at h
      cases h
  | succ n ih =>
    by_cases hs : s.halted = true
    · rw [run_of_halted (n + 1) s hs] at h
      cases h
      exact ⟨hs, run_of_halted _ _ hs⟩
    · have hrun : s.Running := by simpa using hs
      rw [run_succ_of_running n hrun] at h
      obtain ⟨hhalt, hmore⟩ := ih _ h
      rw [Nat.add_right_comm, run_succ_of_running _ hrun]
      exact ⟨hhalt, hmore⟩

end Sys2Proof.Machine
end

section
/-! The access matrix's columns of writes (10_state.md section 7): which field each kind of instruction may write, and the
frames that follow from it. -/

namespace Sys2Proof.Machine

section
variable (i : Instr) (s : State)

theorem nextState_a (h : i.kind ≠ .loadAccumulator) : (nextState i s).a = s.a := by
  cases i with
  | ldaZp | ldaImm | ldaAbs => exact absurd rfl h
  | brk | staZp | staZpX | tax | loadX | unrecognized => rfl

theorem nextState_x (htransfer : i.kind ≠ .transferAtoX) (hloadX : i.kind ≠ .loadX) : (nextState i s).x = s.x := by
  cases i with
  | tax => exact absurd rfl htransfer
  | loadX => exact absurd rfl hloadX
  | brk | staZp | staZpX | ldaZp | ldaImm | ldaAbs | unrecognized => rfl

@[simp] theorem nextState_y : (nextState i s).y = s.y := by
  cases i <;> rfl

theorem nextState_mem (h : i.kind ≠ .storeAccumulator) : (nextState i s).mem = s.mem := by
  cases i with
  | staZp | staZpX => exact absurd rfl h
  | brk | ldaZp | ldaImm | tax | ldaAbs | loadX | unrecognized => rfl

theorem nextState_halted (h : i.kind ≠ .halt) : (nextState i s).halted = s.halted := by
  cases i with
  | brk => exact absurd rfl h
  | staZp | staZpX | ldaZp | ldaImm | tax | ldaAbs | loadX | unrecognized => rfl

theorem nextState_pc_of_loadX (h : i.kind = .loadX) : (nextState i s).pc = s.pc := by
  cases i with
  | loadX => rfl
  | brk | staZp | staZpX | ldaZp | ldaImm | tax | ldaAbs | unrecognized => cases h

/-- An instruction keeps P or makes of it what UpdateZN does. -/
theorem nextState_p_cases : (nextState i s).p = s.p ∨ ∃ v, (nextState i s).p = statusAfter s.p v := by
  cases i with
  | ldaZp | ldaImm | tax | ldaAbs | loadX => exact .inr ⟨_, rfl⟩
  | brk | staZp | staZpX | unrecognized => exact .inl rfl

theorem nextState_p_reserved {j : Nat} (hzero : j ≠ 1) (hnegative : j ≠ 7) :
    (nextState i s).p.getLsbD j = s.p.getLsbD j := by
  obtain hp | ⟨v, hp⟩ := nextState_p_cases i s
  · rw [hp]
  · rw [hp, statusAfter_getLsbD, if_neg hnegative, if_neg hzero]

end

/-- Settles O45: the frame of each field. -/
theorem instructionsWriteOnlyWhatTheMatrixSays : Obligations.InstructionsWriteOnlyWhatTheMatrixSays := by
  intro i s t h
  have hp := exec_next_p h
  obtain rfl := (exec_next_iff i s t).mp h
  exact ⟨nextState_a i s, nextState_x i s, nextState_y i s, fun hload htransfer hloadX => hp hload hloadX htransfer,
    fun _ => nextState_p_reserved i s, nextState_mem i s, nextState_halted i s, nextState_pc_of_loadX i s⟩

/-- Status bytes that agree on every bit but Z and N agree on the six reserved ones. -/
theorem sameReserved_of_getLsbD {p q : Byte} (h : ∀ j, j ≠ 1 → j ≠ 7 → p.getLsbD j = q.getLsbD j) : sameReserved p q := by
  apply BitVec.eq_of_getLsbD_eq
  intro j hj
  rw [BitVec.getLsbD_and, BitVec.getLsbD_and]
  by_cases hflag : j = 1 ∨ j = 7
  · have hmask : (0x7D#8).getLsbD j = false := by obtain rfl | rfl := hflag <;> rfl
    rw [hmask, Bool.and_false, Bool.and_false]
  · rw [not_or] at hflag
    rw [h j hflag.1 hflag.2]

/-- Settles O35: the matrix's columns for the kind LoadAccumulator. -/
theorem ldaFrame : Obligations.LdaFrame := by
  intro i s t hlda hexec
  have hkind : i.kind = .loadAccumulator := by
    obtain ⟨_, rfl⟩ | ⟨_, rfl⟩ | ⟨_, rfl⟩ := hlda <;> rfl
  obtain ⟨-, hx, hy, -, hreserved, hmem, hhalted, -⟩ := instructionsWriteOnlyWhatTheMatrixSays i s t hexec
  exact ⟨hx (by simp [hkind]) (by simp [hkind]), hy, hhalted (by simp [hkind]), sameReserved_of_getLsbD hreserved,
    fun b => by rw [hmem (by simp [hkind])]⟩

/-- Settles O36: the matrix's columns for the kinds TransferAtoX and LoadX. -/
theorem writesToXFrame : Obligations.WritesToXFrame := by
  intro i s t hwrites hexec
  have hkind : i.kind = .transferAtoX ∨ i.kind = .loadX := by
    obtain rfl | ⟨_, rfl⟩ := hwrites
    · exact .inl rfl
    · exact .inr rfl
  obtain ⟨ha, -, hy, -, hreserved, hmem, hhalted, -⟩ := instructionsWriteOnlyWhatTheMatrixSays i s t hexec
  have hother : i.kind ≠ .loadAccumulator ∧ i.kind ≠ .storeAccumulator ∧ i.kind ≠ .halt := by
    obtain h | h := hkind <;> simp [h]
  obtain ⟨hload, hstore, hhalt⟩ := hother
  exact ⟨ha hload, hy, hhalted hhalt, sameReserved_of_getLsbD hreserved, fun b => by rw [hmem hstore]⟩

/-- Settles O44: both instructions' equations. -/
theorem breakAndNoOpFrame : Obligations.BreakAndNoOpFrame := by
  intro i s t hi hexec
  rw [exec_next_iff] at hexec
  subst hexec
  obtain rfl | ⟨op, rfl⟩ := hi
  · exact ⟨rfl, rfl, rfl, rfl, fun hne => absurd rfl hne, fun _ => rfl⟩
  · exact ⟨rfl, rfl, rfl, rfl, fun _ => rfl, fun _ => rfl⟩

/-- Settles O33: LoadX's equation. -/
theorem loadXResult : Obligations.LoadXResult := by
  rintro mode s v rfl
  exact exec_loadX mode s

end Sys2Proof.Machine
end

section
/-! The accesses of a step (20_memory.md R36; decision D9): they are all it reads and all it writes. -/

namespace Sys2Proof.Machine

/-- The accesses of a fetched instruction after its opcode byte; `stepAccesses_eq_cons` ties it to the listing. -/
def operandAccesses (i : Instr) (opPC : Addr) (x : Byte) : List Access :=
  match i with
  | .staZp zz => [.read (add16 opPC 1#16), .write (zext16 zz)]
  | .staZpX zz => [.read (add16 opPC 1#16), .write (zext16 (add8 zz x))]
  | .ldaZp zz => [.read (add16 opPC 1#16), .read (zext16 zz)]
  | .ldaImm _ => [.read (add16 opPC 1#16)]
  | .ldaAbs a16 => [.read (add16 opPC 1#16), .read (add16 opPC 2#16), .read a16]
  | .brk | .tax | .loadX _ | .unrecognized _ => []

theorem stepAccesses_eq_cons (s : State) :
    stepAccesses s = .read s.pc :: operandAccesses (fetchInstr s.mem s.pc) s.pc s.x := by
  rw [stepAccesses]
  cases fetchInstr s.mem s.pc with
  | ldaAbs a16 => simp only [add16_add16]; rfl
  | brk | staZp | staZpX | ldaZp | ldaImm | tax | loadX | unrecognized => rfl

/-- A fetched row's operand bytes are listed as read. -/
theorem read_operand_mem_operandAccesses (op b1 b2 : Byte) (opPC : Addr) (x : Byte) :
    (1 ≤ (decodeOpcode op).width → .read (add16 opPC 1#16) ∈ operandAccesses (decodeFields op b1 b2) opPC x) ∧
    (2 ≤ (decodeOpcode op).width → .read (add16 opPC 2#16) ∈ operandAccesses (decodeFields op b1 b2) opPC x) := by
  rw [decodeOpcode, decodeFields]
  cases opcodeRow op <;> simp [operandAccesses, OpcodeRow.mode, Mode.width, AddrMode.width]

/-- A memory that agrees on the bytes a step reads holds the same instruction at PC. -/
theorem fetchInstr_congr (s : State) (m : Memory)
    (h : ∀ a : Addr, Access.read a ∈ stepAccesses s → readByte m a = readByte s.mem a) :
    fetchInstr m s.pc = fetchInstr s.mem s.pc := by
  rw [stepAccesses_eq_cons] at h
  have hop : readByte m s.pc = readByte s.mem s.pc := h s.pc List.mem_cons_self
  obtain ⟨hfirst, hsecond⟩ := read_operand_mem_operandAccesses (readByte s.mem s.pc)
    (readByte s.mem (add16 s.pc 1#16)) (readByte s.mem (add16 s.pc 2#16)) s.pc s.x
  rw [fetchInstr, fetchInstr, hop]
  exact decodeFields_congr _ _ _ _ _ (fun hw => h _ (List.mem_cons_of_mem _ (hfirst hw)))
    (fun hw => h _ (List.mem_cons_of_mem _ (hsecond hw)))

/-- With a memory that agrees on the bytes it reads, a fetched instruction leaves everything but memory the same. -/
theorem nextState_congr_mem {i : Instr} (hfetched : ∀ mode, i ≠ .loadX mode) (s : State) (m : Memory)
    (h : ∀ a : Addr, Access.read a ∈ operandAccesses i s.pc s.x → readByte m a = readByte s.mem a) :
    ∃ m', nextState i { s with mem := m } = { nextState i s with mem := m' } := by
  cases i with
  | ldaZp zz =>
    have hdata : readByte m (zext16 zz) = readByte s.mem (zext16 zz) := h _ (by simp [operandAccesses])
    exact ⟨m, by simp only [nextState, hdata]⟩
  | ldaAbs a16 =>
    have hdata : readByte m a16 = readByte s.mem a16 := h _ (by simp [operandAccesses])
    exact ⟨m, by simp only [nextState, hdata]⟩
  | loadX mode => exact absurd rfl (hfetched mode)
  | brk | staZp | staZpX | ldaImm | tax | unrecognized => exact ⟨_, rfl⟩

/-- A cell listed as written holds A afterwards. -/
theorem readByte_nextState_written (i : Instr) (s : State) (b : Addr)
    (h : Access.write b ∈ operandAccesses i s.pc s.x) : readByte (nextState i s).mem b = s.a := by
  cases i with
  | staZp | staZpX =>
    obtain rfl : b = _ := by simpa [operandAccesses] using h
    exact readByte_writeByte_same _ _ _
  | brk | ldaZp | ldaImm | tax | ldaAbs | loadX | unrecognized => simp [operandAccesses] at h

/-- A cell not listed as written keeps its byte. -/
theorem readByte_nextState_not_written (i : Instr) (s : State) (b : Addr)
    (h : Access.write b ∉ operandAccesses i s.pc s.x) : readByte (nextState i s).mem b = readByte s.mem b := by
  cases i with
  | staZp | staZpX => exact readByte_writeByte_other _ _ (by simpa [operandAccesses] using h)
  | brk | ldaZp | ldaImm | tax | ldaAbs | loadX | unrecognized => rfl

theorem write_mem_stepAccesses_iff (s : State) (b : Addr) :
    Access.write b ∈ stepAccesses s ↔ Access.write b ∈ operandAccesses (fetchInstr s.mem s.pc) s.pc s.x := by
  simp [stepAccesses_eq_cons]

/-- Settles O46: the same bytes read fetch the same instruction, which then does the same but for the cells it does not
write. -/
theorem stepUsesOnlyItsListedAccesses : Obligations.StepUsesOnlyItsListedAccesses := by
  intro s t m hstep hagree
  obtain ⟨hrun, rfl⟩ := (step_next_iff_nextState s t).mp hstep
  have hfetch := fetchInstr_congr s m hagree
  have hreads : ∀ a : Addr, Access.read a ∈ operandAccesses (fetchInstr s.mem s.pc) s.pc s.x →
      readByte m a = readByte s.mem a := by
    intro a ha
    exact hagree a (by rw [stepAccesses_eq_cons]; exact List.mem_cons_of_mem _ ha)
  obtain ⟨m', hnext⟩ := nextState_congr_mem (fetchInstr_ne_loadX s.mem s.pc) s m hreads
  have hstep' : step { s with mem := m } = .next { nextState (fetchInstr s.mem s.pc) s with mem := m' } := by
    rw [step_eq_nextState (s := { s with mem := m }) hrun, hfetch, hnext]
  refine ⟨⟨_, hstep', rfl, rfl, rfl, rfl, rfl, rfl, ?accesses, fun b hb => ?written⟩, fun b hb => ?kept⟩
  case accesses => rw [stepAccesses_eq_cons, stepAccesses_eq_cons s, hfetch]
  case written =>
    rw [write_mem_stepAccesses_iff] at hb
    have hwritten := readByte_nextState_written _ { s with mem := m } b hb
    rw [hnext] at hwritten
    exact hwritten.trans (readByte_nextState_written _ s b hb).symm
  case kept =>
    rw [write_mem_stepAccesses_iff] at hb
    exact readByte_nextState_not_written _ s b hb

end Sys2Proof.Machine
end

section
/-! What no program sees (10_state.md sections 1 and 2): Y and P, by one induction over runs in lockstep. -/

namespace Sys2Proof.Machine

/-- States whose steps keep a relation have runs that keep it. -/
theorem core_run_simulation {R : State → State → Prop}
    (hR : ∀ s s' t, R s s' → step s = .next t → ∃ t', step s' = .next t' ∧ R t t')
    (k : Nat) {s s' t : State} (h : R s s') (hrun : Host.Core.run Sys2Proof.core k s = .next t) :
    ∃ t', Host.Core.run Sys2Proof.core k s' = .next t' ∧ R t t' := by
  induction k generalizing s s' with
  | zero =>
    obtain rfl := Host.Outcome.next.inj hrun
    exact ⟨s', rfl, h⟩
  | succ k ih =>
    obtain ⟨u, hstep, hrest⟩ := (core_run_succ_iff k s t).mp hrun
    obtain ⟨u', hstep', hu⟩ := hR s s' u h hstep
    obtain ⟨t', hrest', ht⟩ := ih hu hrest
    exact ⟨t', (core_run_succ_iff k s' t').mpr ⟨u', hstep', hrest'⟩, ht⟩

/-- No fetched instruction reads Y: the modes indexed by Y belong to LoadX alone. -/
theorem nextState_set_y {i : Instr} (hfetched : ∀ mode, i ≠ .loadX mode) (s : State) (v : Byte) :
    nextState i { s with y := v } = { nextState i s with y := v } := by
  cases i with
  | loadX mode => exact absurd rfl (hfetched mode)
  | brk | staZp | staZpX | ldaZp | ldaImm | tax | ldaAbs | unrecognized => rfl

/-- No instruction reads P for anything but P. -/
theorem nextState_set_p (i : Instr) (s : State) (q : Byte) :
    nextState i { s with p := q } = { nextState i s with p := (nextState i { s with p := q }).p } := by
  cases i <;> rfl

/-- Two states that differ in Y alone, holding `y` and `v` there. -/
def differInY (y v : Byte) (s s' : State) : Prop := s.y = y ∧ s' = { s with y := v }

/-- Two states that differ in P alone. -/
def differInP (s s' : State) : Prop := ∃ q, s' = { s with p := q }

theorem step_keeps_differInY (y v : Byte) (s s' t : State) (h : differInY y v s s') (hstep : step s = .next t) :
    ∃ t', step s' = .next t' ∧ differInY y v t t' := by
  obtain ⟨hy, rfl⟩ := h
  obtain ⟨hrun, rfl⟩ := (step_next_iff_nextState s t).mp hstep
  refine ⟨_, step_eq_nextState (s := { s with y := v }) hrun, ?_, nextState_set_y (fetchInstr_ne_loadX _ _) s v⟩
  rw [nextState_y, hy]

theorem step_keeps_differInP (s s' t : State) (h : differInP s s') (hstep : step s = .next t) :
    ∃ t', step s' = .next t' ∧ differInP t t' := by
  obtain ⟨q, rfl⟩ := h
  obtain ⟨hrun, rfl⟩ := (step_next_iff_nextState s t).mp hstep
  exact ⟨_, step_eq_nextState (s := { s with p := q }) hrun, _, nextState_set_p _ s q⟩

/-- Settles O47: steps keep two states differing in Y alone, so runs do. -/
theorem noProgramSeesY : Obligations.NoProgramSeesY := by
  intro k s t v hrun
  obtain ⟨t', hrun', hy, rfl⟩ := core_run_simulation (step_keeps_differInY s.y v) k ⟨rfl, rfl⟩ hrun
  exact ⟨hy, hrun'⟩

/-- Settles O48: steps keep two states differing in P alone, so runs do. -/
theorem noProgramSeesP : Obligations.NoProgramSeesP := by
  intro k s t q hrun
  obtain ⟨t', hrun', r, rfl⟩ := core_run_simulation step_keeps_differInP k ⟨q, rfl⟩ hrun
  exact ⟨r, hrun'⟩

end Sys2Proof.Machine
end

section
/-! Construct, Load, Reset, Start and the host's reads and writes (70_reset_and_hazards.md). -/

namespace Sys2Proof.Machine

theorem add16_resetVector_one : add16 Config.resetVector 1#16 = 0xFFFD#16 := by decide

/-- Memory as an accepted load leaves it. -/
def loadedMem (bytes : List Byte) (base : Addr) (m : Memory) : Memory :=
  writeWord (copyBytes bytes base m) Config.resetVector base

theorem load_eq_loadedMem {bytes : List Byte} {base : Addr} (s : State) (h : base.toNat + bytes.length ≤ 65536) :
    load bytes base s = .next { s with mem := loadedMem bytes base s.mem } :=
  load_of_fits bytes base s h

/-- Clear of the vector, a loaded memory holds the program where it was placed, and elsewhere what it held. -/
theorem readByte_loadedMem {bytes : List Byte} {base : Addr} (m : Memory) {b : Addr}
    (h : base.toNat + bytes.length ≤ 65536) (hlow : b ≠ 0xFFFC#16) (hhigh : b ≠ 0xFFFD#16) :
    readByte (loadedMem bytes base m) b =
      if base.toNat ≤ b.toNat ∧ b.toNat < base.toNat + bytes.length
      then bytes.getD (b.toNat - base.toNat) 0x00#8 else readByte m b := by
  have hnext : b ≠ add16 Config.resetVector 1#16 := by rwa [add16_resetVector_one]
  have hclear : readByte (loadedMem bytes base m) b = readByte (copyBytes bytes base m) b :=
    readByte_writeWord_other _ _ hlow hnext
  rw [hclear, readByte_after_copyBytes _ _ _ _ h]

/-- Settles O52: the program's cells by `copyBytes`, the vector's by the `writeWord` after it. -/
theorem loadPlacesBytesThenVector : Obligations.LoadPlacesBytesThenVector :=
  fun _ base s h => ⟨_, load_eq_loadedMem s h, rfl, rfl, rfl, rfl, rfl, rfl, readWord_writeWord_same _ _ base,
    fun _ => readByte_loadedMem s.mem h⟩

/-- Settles O53: the two answers of `load`, which exclude each other. -/
theorem loadPastTheEndIsRefused : Obligations.LoadPastTheEndIsRefused := by
  intro bytes base s
  refine ⟨⟨fun hrefused => ?_, load_of_past_end bytes base s⟩, fun hpast t hnext => ?_⟩
  · by_contra hfits
    rw [load_of_fits bytes base s (by omega)] at hrefused
    cases hrefused
  · rw [load_of_past_end bytes base s hpast] at hnext
    cases hnext

theorem standardLoadAddress_toNat : Config.standardLoadAddress.toNat = 0x8000 := rfl

/-- Settles O54: the load at 0x8000, its vector's two bytes evaluated. -/
theorem standardLoadPath : Obligations.StandardLoadPath := by
  refine ⟨fun bytes s h => ?_, fun bytes s h => ?_⟩
  · have hfits : Config.standardLoadAddress.toNat + bytes.length ≤ 65536 := by rw [standardLoadAddress_toNat]; omega
    refine ⟨_, load_eq_loadedMem s hfits, ?low, ?high, fun b hlow hhigh hfrom hto => ?_⟩
    case low => exact readByte_writeWord_low _ Config.resetVector Config.standardLoadAddress
    case high => exact readByte_writeWord_high _ Config.resetVector Config.standardLoadAddress
    rw [readByte_loadedMem s.mem hfits hlow hhigh, standardLoadAddress_toNat, if_pos ⟨hfrom, hto⟩]
  · exact load_of_past_end bytes _ s (by rw [standardLoadAddress_toNat]; omega)

/-- Each byte of a loaded program that the vector does not cover reads back at its place. -/
theorem readByte_loadedMem_program {bytes : List Byte} {base : Addr} (m : Memory) {k : Nat}
    (h : base.toNat + bytes.length ≤ 65536) (hk : k < bytes.length)
    (hvector : base.toNat + k ≠ 0xFFFC ∧ base.toNat + k ≠ 0xFFFD) :
    readByte (loadedMem bytes base m) (add16 base (BitVec.ofNat 16 k)) = bytes.getD k 0x00#8 := by
  have haddr : (add16 base (BitVec.ofNat 16 k)).toNat = base.toNat + k := by
    rw [add16_toNat, BitVec.toNat_ofNat]
    omega
  have hne : ∀ w : Addr, base.toNat + k ≠ w.toNat → add16 base (BitVec.ofNat 16 k) ≠ w := by
    rintro w hw rfl
    exact hw haddr.symm
  rw [readByte_loadedMem m h (hne _ hvector.1) (hne _ hvector.2), haddr, if_pos (by omega), Nat.add_sub_cancel_left]

/-- A loaded program's first instruction is fetched at the base where the vector covers none of its bytes. -/
theorem fetchInstr_loadedMem {bytes rest : List Byte} {base : Addr} {i : Instr} (m : Memory)
    (h : base.toNat + bytes.length ≤ 65536) (hdecode : decode bytes = .ok (i, rest))
    (hvector : ∀ k, k < 1 + i.mode.width → base.toNat + k ≠ 0xFFFC ∧ base.toNat + k ≠ 0xFFFD) :
    fetchInstr (loadedMem bytes base m) base = i := by
  have hread : ∀ k, k < 1 + i.mode.width →
      readByte (loadedMem bytes base m) (add16 base (BitVec.ofNat 16 k)) = bytes.getD k 0x00#8 := fun k hk =>
    readByte_loadedMem_program m h (by have := decode_ok_length hdecode; omega) (hvector k hk)
  obtain ⟨op, tail, rfl⟩ := decode_ok_eq_cons hdecode
  obtain ⟨-, hfields, -⟩ := (decode_cons_ok_iff op tail rest i).mp hdecode
  have hwidth : i.mode.width = (decodeOpcode op).width := by rw [hfields, decodeFields_mode_width]
  have hop : readByte (loadedMem (op :: tail) base m) base = op := by simpa [add16] using hread 0 (by omega)
  rw [fetchInstr, hop, hfields]
  exact decodeFields_congr _ _ _ _ _ (fun hw => hread 1 (by omega)) (fun hw => hread 2 (by omega))

/-- Settles O55: Reset takes PC from the vector Load wrote, and the first instruction is fetched there. -/
theorem bootReachesTheProgram : Obligations.BootReachesTheProgram := by
  intro on bytes base h
  have hpc : readWord (loadedMem bytes base (construct on).mem) Config.resetVector = base := readWord_writeWord_same _ _ base
  refine ⟨_, load_eq_loadedMem (construct on) h, rfl, rfl, rfl, rfl, hpc, rfl, fun i rest hdecode hvector => ?_⟩
  refine step_of_fetchInstr rfl ?_
  rw [resetCore_pc, resetCore_mem, hpc]
  exact fetchInstr_loadedMem _ h hdecode hvector

/-- Settles O49: with nothing loaded the vector's word is 0x0000 and every cell reads as an unlisted one. -/
theorem resetStateIsConstructThenReset : Obligations.ResetStateIsConstructThenReset :=
  ⟨by decide, rfl, rfl, rfl, rfl, rfl, readByte_empty⟩

/-- Settles O50: the field laws of `resetCore`, PC by the value of the vector's word. -/
theorem resetLoadsVectorAndKeepsY : Obligations.ResetLoadsVectorAndKeepsY := by
  refine fun s => ⟨rfl, rfl, rfl, ?_, rfl, rfl, rfl⟩
  rw [resetCore_pc, readWord_toNat, add16_resetVector_one]
  rfl

@[simp] theorem readWord_empty (a : Addr) : readWord [] a = 0x0000#16 := by
  rw [readWord, readByte_empty, readByte_empty]
  decide

theorem resetCore_construct_pc (on : PowerOn) : (resetCore (construct on)).pc = 0x0000#16 := readWord_empty _

/-- Settles O51: memory is empty, so Reset takes PC from a zero vector and the first step fetches 0x00. -/
theorem constructionIsZeroMemoryAndHalted : Obligations.ConstructionIsZeroMemoryAndHalted := by
  refine fun on => ⟨rfl, rfl, rfl, rfl, rfl, readByte_empty, rfl, ?_⟩
  have hfetch : fetchInstr (resetCore (construct on)).mem (resetCore (construct on)).pc = .brk :=
    fetchInstr_brk (readByte_empty _)
  refine ⟨_, (step_of_fetchInstr rfl hfetch).trans (exec_brk _), rfl, ?_, rfl⟩
  rw [resetCore_construct_pc]
  rfl

/-- Settles O56: the halt bit is the one field Start writes. -/
theorem startOnlyClearsHalt : Obligations.StartOnlyClearsHalt :=
  fun _ => ⟨rfl, rfl⟩

theorem readReg_writeReg_same (r : Reg) (v : BitVec r.width) (s : State) : readReg r (writeReg r v s) = v := by
  cases r <;> rfl

theorem readReg_writeReg_other {q r : Reg} (h : q ≠ r) (v : BitVec r.width) (s : State) :
    readReg q (writeReg r v s) = readReg q s := by
  revert h
  cases r <;> cases q <;> simp [readReg, writeReg]

theorem readHalted_writeReg (r : Reg) (v : BitVec r.width) (s : State) : readHalted (writeReg r v s) = s.halted := by
  cases r <;> rfl

/-- Settles O57: a register's write register by register, a memory cell's by the law of `writeByte`. -/
theorem hostWritesReadBackUnchanged : Obligations.HostWritesReadBackUnchanged :=
  ⟨fun _ => ⟨rfl, rfl, rfl, rfl, rfl, rfl, fun _ => rfl⟩,
    fun r v s => ⟨readReg_writeReg_same r v s, fun _ hq => readReg_writeReg_other hq v s, writeReg_mem r v s,
      readHalted_writeReg r v s⟩,
    fun a v s => ⟨readByte_writeByte_same s.mem a v, fun _ hb => readByte_writeByte_other s.mem v hb, rfl⟩⟩

end Sys2Proof.Machine
end
